-- ==== Sys2Proof/Word.lean ====
section
/-! DEFINITION. The words of the engine: a row of cells, a rule table, a command word, and the
boundary mode's two names. Every value of the engine is an unsigned bit vector of a fixed width
(spec 00_scope.md R5, 44_set_state_reset.md R101). -/

namespace Sys2Proof

/-- A row of `W` cells in packed form, cell 0 in the most significant bit
(00_scope.md R7, 10_state.md R10). -/
abbrev Row (W : Nat) := BitVec W

/-- The rule table: bit `k` is the entry for neighbourhood index `k` (10_state.md R13). -/
abbrev RuleTable := BitVec 8

/-- A command word: `bits ∥ rule ∥ mode ∥ op` (30_encoding.md R50). -/
abbrev CommandWord (W : Nat) := BitVec (W + 12)

/-- The boundary mode, an enumeration of two names (10_state.md R14). Its bit value on the command
word is given by `Mode.bit` and `Mode.ofBit` of Decode.lean. -/
inductive Mode where
  /-- Cells outside the row are 0. -/
  | fixed
  /-- The row is a ring. -/
  | periodic
deriving DecidableEq, Repr, Inhabited

end Sys2Proof
end

