-- ==== Sys2Proof/Config.lean ====
section
/-! DEFINITION. What an implementation fixes, and the values the spec leaves open. -/

namespace Sys2Proof

/-- The width of the row in the machine of the fixed names: the spec's canonical and default value
(00_scope.md R4, 10_state.md R15). Every definition of the engine takes the width as an argument;
only `Instr`, `State` and `step` are at this one.
DESIGN CHOICE, notes/assumptions/1.md. -/
abbrev Config.W : Nat := 128

/-- The contents of `STATE` after the `n`-th hard reset: unspecified (70_reset_and_hazards.md R131).
A free value: it has no body, so nothing can be proved of it. DESIGN CHOICE, notes/assumptions/2.md. -/
opaque Config.unspecifiedState (W n : Nat) : Row W

/-- The contents of `INIT_STATE` after the `n`-th hard reset: unspecified (R131). A free value.
DESIGN CHOICE, notes/assumptions/2.md. -/
opaque Config.unspecifiedInitState (W n : Nat) : Row W

/-- The contents of `RULE` after the `n`-th hard reset: unspecified (R131). A free value.
DESIGN CHOICE, notes/assumptions/2.md. -/
opaque Config.unspecifiedRule (n : Nat) : RuleTable

/-- The contents of `MODE` after the `n`-th hard reset: unspecified (R131). A free value.
DESIGN CHOICE, notes/assumptions/2.md. -/
opaque Config.unspecifiedMode (n : Nat) : Mode

end Sys2Proof
end

