-- ==== Sys2Proof/Syntax.lean ====
section
/-! DEFINITION. The commands of the engine, one constructor per row of spec/opcode_table.json
(30_encoding.md R52). `WRITE_STATE` is another spelling of `SET_STATE` (44_set_state_reset.md R97)
and has no constructor. -/

namespace Sys2Proof

/-- A decoded command with its typed operands. -/
inductive Instr where
  /-- `op = 0`: not an operation; executing it raises `ReservedOp` (R54, R111). -/
  | reserved
  /-- `NEW rule, mode, bits` (R70). -/
  | new (rule : RuleTable) (mode : Mode) (bits : Row Config.W)
  /-- `STEP` (R81). -/
  | step
  /-- `READ_STATE` (R90). -/
  | readState
  /-- `SET_RULE rule` (R92). -/
  | setRule (rule : RuleTable)
  /-- `SET_BOUNDARY_MODE mode` (R94). -/
  | setBoundaryMode (mode : Mode)
  /-- `SET_STATE bits` (R96), also written `WRITE_STATE bits` (R97). -/
  | setState (bits : Row Config.W)
  /-- `RESET` (R99): the operation, never the hard reset. -/
  | reset
deriving DecidableEq, Repr

end Sys2Proof
end

