-- ==== Sys2Proof/WellFormed.lean ====
section
/-! DEFINITION. What is well formed. Two levels.

* `Instr.WellFormed`: the seven operations. Their operand types admit exactly the legal values, so
  the one ill-formed `Instr` is the reserved opcode (30_encoding.md R51, R54).
* `Request`: a call as the host's side may write it, with unconstrained numbers and a cell sequence,
  before it is a command. Here the document's contract violations can be written down, and
  `Request.WellFormed` refuses each of them (60_exceptions.md R119, 20_memory.md R35):
  no command word exists for a request it refuses. -/

namespace Sys2Proof

/-- One of the seven operations of 30_encoding.md R52 (`op = 0` is none of them, R54). -/
def Instr.WellFormed : Instr → Bool
  | .reserved => false
  | .new _ _ _ => true
  | .step => true
  | .readState => true
  | .setRule _ => true
  | .setBoundaryMode _ => true
  | .setState _ => true
  | .reset => true

/-- A host's call with operands not yet checked: `rule` and `mode` any number, `cells` a sequence of
numbers, first cell first (20_memory.md R31, R34; 40_new.md R71). -/
inductive Request where
  | new (rule mode : Nat) (cells : List Nat)
  | step
  | readState
  | setRule (rule : Nat)
  | setBoundaryMode (mode : Nat)
  | setState (cells : List Nat)
  | reset
deriving DecidableEq, Repr

/-- "`rule` outside 0–255" is a contract violation (60_exceptions.md R119). -/
def ruleInRange (rule : Nat) : Bool := decide (rule < 256)

/-- "boundary mode outside {FIXED, PERIODIC}" is a contract violation (R119); 0 is FIXED and 1 is
PERIODIC (10_state.md R14). -/
def modeInRange (mode : Nat) : Bool := decide (mode < 2)

/-- "a sequence of length ≠ `width` is a contract violation" (20_memory.md R35). -/
def lengthIsWidth (W : Nat) (cells : List Nat) : Bool := decide (cells.length = W)

/-- Each element of a row is 0 or 1 (20_memory.md R31, R34). -/
def cellsAreBits (cells : List Nat) : Bool := cells.all (fun c => decide (c < 2))

/-- The request keeps the contract of R119 for an engine of width `W`. -/
def Request.WellFormed (W : Nat) : Request → Bool
  | .new rule mode cells =>
    ruleInRange rule && modeInRange mode && lengthIsWidth W cells && cellsAreBits cells
  | .step => true
  | .readState => true
  | .setRule rule => ruleInRange rule
  | .setBoundaryMode mode => modeInRange mode
  | .setState cells => lengthIsWidth W cells && cellsAreBits cells
  | .reset => true

end Sys2Proof
end

