-- ==== Sys2Proof/Decode.lean ====
section
/-! DEFINITION. The command word (spec 30_encoding.md R50 to R56, R61): its fields, the opcode table,
the decoder, total on any `W + 12` bits, and the encoder. -/

namespace Sys2Proof

/-! ### Fields -/

/-- The boundary mode's bit: 0 = FIXED, 1 = PERIODIC (10_state.md R14). -/
def Mode.bit : Mode → Bool
  | .fixed => false
  | .periodic => true

/-- The boundary mode a bit stands for (10_state.md R14). -/
def Mode.ofBit : Bool → Mode
  | false => .fixed
  | true => .periodic

variable {W : Nat}

/-- `op = CW[2:0]` (R51). -/
def opField (cw : CommandWord W) : BitVec 3 := cw.extractLsb' 0 3

/-- `mode = CW[3]` (R51). -/
def modeField (cw : CommandWord W) : Mode := Mode.ofBit (cw.getLsbD 3)

/-- `rule = CW[11:4]` (R51). -/
def ruleField (cw : CommandWord W) : RuleTable := cw.extractLsb' 4 8

/-- `bits = CW[W+11:12]` (R51). -/
def bitsField (cw : CommandWord W) : Row W := cw.extractLsb' 12 W

/-- A command word from its four fields, `bits ∥ rule ∥ mode ∥ op` (R50). -/
def assembleWord (bits : Row W) (rule : RuleTable) (mode : Mode) (op : BitVec 3) : CommandWord W :=
  bits ++ rule ++ BitVec.ofBool mode.bit ++ op

/-! ### The opcode table -/

/-- A row of spec/opcode_table.json: over the command word, every mask is 7 (R55). -/
structure OpcodeRow where
  mnemonic : String
  mask : Nat
  pattern : Nat
deriving DecidableEq, Repr

/-- The opcode map (R52). -/
def opcodeTable : List OpcodeRow :=
  [ ⟨"(reserved)", 7, 0⟩, ⟨"NEW", 7, 1⟩, ⟨"STEP", 7, 2⟩, ⟨"READ_STATE", 7, 3⟩,
    ⟨"SET_RULE", 7, 4⟩, ⟨"SET_BOUNDARY_MODE", 7, 5⟩, ⟨"SET_STATE", 7, 6⟩, ⟨"RESET", 7, 7⟩ ]

/-- The word has the row's pattern under the row's mask. -/
def OpcodeRow.Matches (row : OpcodeRow) (cw : CommandWord W) : Bool :=
  decide (cw.toNat &&& row.mask = row.pattern)

/-- The mnemonic of an instruction, as the opcode table spells it (R52). -/
def Instr.mnemonic : Instr → String
  | .reserved => "(reserved)"
  | .new _ _ _ => "NEW"
  | .step => "STEP"
  | .readState => "READ_STATE"
  | .setRule _ => "SET_RULE"
  | .setBoundaryMode _ => "SET_BOUNDARY_MODE"
  | .setState _ => "SET_STATE"
  | .reset => "RESET"

/-- The opcode of an instruction (R52). -/
def Instr.opcode : Instr → BitVec 3
  | .reserved => 0
  | .new _ _ _ => 1
  | .step => 2
  | .readState => 3
  | .setRule _ => 4
  | .setBoundaryMode _ => 5
  | .setState _ => 6
  | .reset => 7

/-! ### Decoding -/

/-- The decoder (R55): total, and it examines only `op` and the fields the operation uses (R53). The
last arm is `op = 7`, the one value of three bits that is left. -/
def decode (cw : CommandWord Config.W) : Instr :=
  match (opField cw).toNat with
  | 0 => .reserved
  | 1 => .new (ruleField cw) (modeField cw) (bitsField cw)
  | 2 => .step
  | 3 => .readState
  | 4 => .setRule (ruleField cw)
  | 5 => .setBoundaryMode (modeField cw)
  | 6 => .setState (bitsField cw)
  | _ => .reset

/-! ### Encoding -/

/-- The encoder: the word of R60, with zero in every field the operation ignores. The reserved opcode
has no statement in R60; its word here is the all-zero one. -/
def encode : Instr → CommandWord Config.W
  | .reserved => assembleWord 0 0 .fixed 0
  | .new rule mode bits => assembleWord bits rule mode 1
  | .step => assembleWord 0 0 .fixed 2
  | .readState => assembleWord 0 0 .fixed 3
  | .setRule rule => assembleWord 0 rule .fixed 4
  | .setBoundaryMode mode => assembleWord 0 0 mode 5
  | .setState bits => assembleWord bits 0 .fixed 6
  | .reset => assembleWord 0 0 .fixed 7

/-! ### The opcode table's words -/

/-- The command word whose low `nbits` bits are those of `w` and whose other bits are 0. The engine has
no bytes (20_memory.md R34): the table's bit 0 is `CW[0]` (R55). DEDUCED, notes/assumptions/8.md. -/
def tableWord (nbits w : Nat) : CommandWord Config.W :=
  BitVec.ofNat (Config.W + 12) (w % 2 ^ nbits)

/-- The instruction the decoder reads from such a word. The decoder refuses none. -/
def decodeTableWord (nbits w : Nat) : Option Instr :=
  some (decode (tableWord nbits w))

end Sys2Proof
end

