-- ==== Sys2Proof/Machine/State.lean ====
section
/-! DEFINITION. The state: the six registers of the engine (spec 10_state.md R10 to R25), the host's
pending inputs and the responses it has received, as plain data. There is no other state (R20 to
R22): no program counter, no flags, no memory. -/

namespace Sys2Proof.Machine

/-! ### Why a step could stop -/

/-- Why the machine stops with a fault: never. The engine's own faults (`FaultCause`) are recorded in
the register `FAULT` and answered to the host, and the engine goes on (60_exceptions.md R110, R117),
so nothing raises a fault of this kind. -/
inductive Fault
deriving DecidableEq, Repr

/-- Why the model has no meaning for an instruction. -/
inductive Refusal where
  /-- Raised only by an arm of `exec` whose instruction has no meaning yet (no arm is left). Safe. -/
  | notModelled (mnemonic : String)
deriving DecidableEq, Repr

/-! ### Faults and responses of the engine -/

/-- The two faults of the engine (60_exceptions.md R111, R112). -/
inductive FaultCause where
  /-- `op = 0` (R111). -/
  | reservedOp
  /-- An operation other than `NEW` while `CONFIGURED = 0` (R112). -/
  | notConfigured
deriving DecidableEq, Repr

/-- The status of a response: `OK`, or the fault of the command (30_encoding.md R57). Status 3 does
not exist (93_implementation_defined.md I14). -/
inductive Status where
  | ok
  | fault (cause : FaultCause)
deriving DecidableEq, Repr

/-- A response: a status and, for a successful `READ_STATE` only, a row (R57). -/
structure Response (W : Nat) where
  status : Status
  data : Option (Row W)
deriving DecidableEq, Repr

/-! ### The engine -/

/-- The registers of one engine of width `W` (10_state.md). -/
structure Engine (W : Nat) where
  /-- `STATE`, the current generation (R11). -/
  state : Row W
  /-- `INIT_STATE`, the restore point (R12). -/
  initState : Row W
  /-- `RULE`, the rule table (R13). -/
  rule : RuleTable
  /-- `MODE`, the boundary mode (R14). -/
  mode : Mode
  /-- `CONFIGURED` (R18). -/
  configured : Bool
  /-- `FAULT`, the code of the first fault since hard reset (R19). -/
  fault : BitVec 2
  /-- The model's own: how many hard resets there have been. It indexes the unspecified register
  contents of R131 and nothing else reads it. DESIGN CHOICE, notes/assumptions/2.md. -/
  resetCount : Nat
deriving DecidableEq, Repr

/-- The engine after its `n`-th hard reset: `CONFIGURED = 0`, `FAULT = 0`, and the four registers of
the document unspecified (10_state.md R25, 70_reset_and_hazards.md R131). -/
def Engine.unconfigured (W n : Nat) : Engine W where
  state := Config.unspecifiedState W n
  initState := Config.unspecifiedInitState W n
  rule := Config.unspecifiedRule n
  mode := Config.unspecifiedMode n
  configured := false
  fault := 0
  resetCount := n

/-! ### The host's side -/

/-- What the host does to the engine next (00_scope.md R8, 70_reset_and_hazards.md R130, R132).
DESIGN CHOICE, notes/assumptions/3.md and 5.md. -/
inductive HostInput (W : Nat) where
  /-- The host issues a command word. -/
  | command (cw : CommandWord W)
  /-- The host asserts hard reset between commands (R130). -/
  | hardReset
  /-- The host issues a command and asserts hard reset while it executes, which abandons it (R132). -/
  | commandCutByHardReset (cw : CommandWord W)
deriving DecidableEq, Repr

/-- The machine: the engine at the canonical width, the host's inputs still to come, oldest first, and
the responses the host has received, oldest first. The last two are the model's own fields.
DESIGN CHOICE, notes/assumptions/3.md and 4.md. -/
structure State where
  engine : Engine Config.W
  inputs : List (HostInput Config.W)
  responses : List (Response Config.W)
deriving DecidableEq, Repr

/-- The machine right after hard reset, with nothing placed: the registers as R25 gives them, no input
pending and no response given. -/
def State.reset : State where
  engine := Engine.unconfigured Config.W 0
  inputs := []
  responses := []

end Sys2Proof.Machine
end

