-- ==== Sys2Proof/Machine/Flags.lean ====
section
/-! DEFINITION. The engine has no flags, condition codes or predicates (spec 10_state.md R21): no
operation computes one. What stands in their place is the status register `FAULT` and the status of a
response, and the codes both carry (10_state.md R19, 30_encoding.md R57, 60_exceptions.md R113, R114). -/

namespace Sys2Proof.Machine

/-- The code of a fault: 1 = `ReservedOp`, 2 = `NotConfigured` (10_state.md R19). -/
def FaultCause.code : FaultCause → BitVec 2
  | .reservedOp => 1
  | .notConfigured => 2

/-- The status code on the port `rsp_status`; a fault's status is its `FAULT` code (R57, R113). -/
def Status.code : Status → BitVec 2
  | .ok => 0
  | .fault cause => cause.code

/-- `FAULT` after a command faults: the first fault's code is kept (60_exceptions.md R114). -/
def firstFault (old : BitVec 2) (cause : FaultCause) : BitVec 2 :=
  if old = 0 then cause.code else old

end Sys2Proof.Machine
end

