-- ==== Sys2Proof/Machine/Ops.lean ====
section
/-! DEFINITION. The operations every meaning is built from: the register writes, the response, taking
a fault, the `CONFIGURED` check, hard reset, and the host's input queue. There is no memory
(spec 20_memory.md R30), so there is no memory operation. -/

namespace Sys2Proof.Machine

variable {W : Nat}

/-! ### Register writes, one per register (10_state.md R23) -/

def Engine.writeState (e : Engine W) (row : Row W) : Engine W := { e with state := row }
def Engine.writeInitState (e : Engine W) (row : Row W) : Engine W := { e with initState := row }
def Engine.writeRule (e : Engine W) (rule : RuleTable) : Engine W := { e with rule := rule }
def Engine.writeMode (e : Engine W) (mode : Mode) : Engine W := { e with mode := mode }

/-- `CONFIGURED <- 1`: only `NEW` does it, and no command clears the bit (10_state.md R18). -/
def Engine.markConfigured (e : Engine W) : Engine W := { e with configured := true }

/-- The `FAULT` update of a faulting command (60_exceptions.md R114). -/
def Engine.recordFault (e : Engine W) (cause : FaultCause) : Engine W :=
  { e with fault := firstFault e.fault cause }

/-! ### Completion, fault, and the check of `CONFIGURED`

The execution of a command takes the registers before it to the registers after it and a response
(60_exceptions.md R110). -/

/-- `respond(OK)` (30_encoding.md R57). -/
def respondOk (e : Engine W) : Engine W × Response W := (e, ⟨.ok, none⟩)

/-- `respond(OK, data)` (R57). -/
def respondData (e : Engine W) (data : Row W) : Engine W × Response W := (e, ⟨.ok, some data⟩)

/-- Taking a fault (60_exceptions.md R114, R117): `FAULT` records the first fault, the response carries
the fault's status and no data, and nothing else changes. Nothing is entered, so there is no return
operation (R118). -/
def raise (cause : FaultCause) (e : Engine W) : Engine W × Response W :=
  (e.recordFault cause, ⟨.fault cause, none⟩)

/-- `if CONFIGURED = 0 then raise NotConfigured()`, before an operation other than `NEW` (R112). -/
def whenConfigured (op : Engine W → Engine W × Response W) (e : Engine W) :
    Engine W × Response W :=
  if e.configured then op e else raise .notConfigured e

/-! ### Hard reset -/

/-- Hard reset (70_reset_and_hazards.md R131). The unspecified registers take new free values, which
are not said to be what they held before. -/
def Engine.hardReset (e : Engine W) : Engine W := Engine.unconfigured W (e.resetCount + 1)

/-! ### The machine -/

def State.withEngine (s : State) (e : Engine Config.W) : State := { s with engine := e }
def State.withInputs (s : State) (inputs : List (HostInput Config.W)) : State :=
  { s with inputs := inputs }

/-- The response joins the ones the host has received, in command order (30_encoding.md R57). -/
def State.respond (s : State) (r : Response Config.W) : State :=
  { s with responses := s.responses ++ [r] }

/-- Run one operation: the registers take its result and its response goes to the host. Every command
gives exactly one response (R57) and the machine goes on (60_exceptions.md R110). -/
def State.perform (s : State) (op : Engine Config.W → Engine Config.W × Response Config.W) :
    Host.Outcome State Fault Refusal :=
  .next ((s.withEngine (op s.engine).1).respond (op s.engine).2)

/-- A hard reset of the machine: no response, and the inputs still to come are kept (R132). -/
def State.hardReset (s : State) : State := s.withEngine s.engine.hardReset

/-- The host's next input, and the machine with that input taken. -/
def State.nextInput (s : State) : Option (HostInput Config.W × State) :=
  match s.inputs with
  | [] => none
  | input :: rest => some (input, s.withInputs rest)

/-- The host issues the command word next, before what it had pending. -/
def State.issue (s : State) (cw : CommandWord Config.W) : State :=
  s.withInputs (.command cw :: s.inputs)

end Sys2Proof.Machine
end

