-- ==== Sys2Proof/Machine/Operands.lean ====
section
/-! DEFINITION. The row as cells and as a packed integer (spec 00_scope.md R7, 20_memory.md R31 to R35),
and the operand forms of a host's request. Operands of a command word are plain fields
(30_encoding.md R61): see Decode.lean. -/

namespace Sys2Proof.Machine

variable {W : Nat}

/-- Cell `i` of a row: `cell(X, i) = X[W-1-i]` for `i` in `0..W-1` (00_scope.md R7). Outside the row
there is no cell; the function answers 0 there and no rule reads it.
DESIGN CHOICE, notes/assumptions/12.md. -/
def cell (X : Row W) (i : Nat) : Bool := decide (i < W) && X.getLsbD (W - 1 - i)

/-- The number a 0/1 sequence stands for, its first element the most significant: the sum of
`b_i * 2^(W-1-i)` (20_memory.md R31). The bit stands last in each sum, so that a sum over unknown bits does
not unfold. -/
def packNat : List Bool → Nat
  | [] => 0
  | b :: rest => packNat rest + 2 ^ rest.length * b.toNat

/-- The row of width `W` with these cells, first cell first. -/
def packCells (W : Nat) (cells : List Bool) : Row W := BitVec.ofNat W (packNat cells)

/-- `pack` (20_memory.md R31): defined only for a sequence of exactly `W` cells; a sequence of any other
length is refused (R35). DESIGN CHOICE of the spec, notes/assumptions/7.md. -/
def pack (W : Nat) (cells : List Bool) : Option (Row W) :=
  if cells.length = W then some (packCells W cells) else none

/-- `unpack` (20_memory.md R32): the cells of a row, cell 0 first. -/
def unpack (X : Row W) : List Bool := (List.range W).map (cell X)

/-! ### Operands of a request -/

/-- The cell a number of a request's sequence stands for; a well-formed request has only 0 and 1. -/
def cellOfNat (n : Nat) : Bool := n == 1

/-- The row operand of a request: refused unless it has `W` elements, each 0 or 1 (R31, R34, R35). -/
def rowOperand (W : Nat) (cells : List Nat) : Option (Row W) :=
  if cellsAreBits cells then pack W (cells.map cellOfNat) else none

/-- The rule operand of a request: refused outside 0–255 (60_exceptions.md R119). -/
def ruleOperand (rule : Nat) : Option RuleTable :=
  if ruleInRange rule then some (BitVec.ofNat 8 rule) else none

/-- The mode operand of a request: refused outside {FIXED, PERIODIC} (60_exceptions.md R119). -/
def modeOperand (mode : Nat) : Option Mode :=
  if modeInRange mode then some (Mode.ofBit (mode == 1)) else none

end Sys2Proof.Machine

namespace Sys2Proof

open Machine

/-- The command word of a request, at any width, with zero in the ignored fields (30_encoding.md R60). In
the sequence form of the row operand, `NEW(rule, seq, mode)` is `NEW(rule, mode, pack(seq))` (40_new.md
R71; `SET_STATE` likewise, 44_set_state_reset.md R96). A request that breaks the contract has no command
word and never reaches the engine (60_exceptions.md R119). -/
def Request.toWord (W : Nat) : Request → Option (CommandWord W)
  | .new rule mode cells => do
    let r ← ruleOperand rule
    let m ← modeOperand mode
    let b ← rowOperand W cells
    return assembleWord b r m 1
  | .step => some (assembleWord 0 0 .fixed 2)
  | .readState => some (assembleWord 0 0 .fixed 3)
  | .setRule rule => (ruleOperand rule).map (assembleWord 0 · .fixed 4)
  | .setBoundaryMode mode => (modeOperand mode).map (assembleWord 0 0 · 5)
  | .setState cells => (rowOperand W cells).map (assembleWord · 0 .fixed 6)
  | .reset => some (assembleWord 0 0 .fixed 7)

end Sys2Proof
end

