-- ==== Sys2Proof/Machine/Configure.lean ====
section
/-! DEFINITION. The operations that configure the engine: `NEW` (spec 40_new.md), `SET_RULE` and
`SET_BOUNDARY_MODE` (43_set_rule_set_boundary_mode.md). Each is the spec's pseudocode at any width, and
beside it the meaning of the instruction at the canonical one. -/

namespace Sys2Proof.Machine

variable {W : Nat}

/-- `NEW` (40_new.md R70): loads the row, makes it the restore point, loads the rule and the boundary
mode, and configures the engine. It never faults and leaves `FAULT` as it is. -/
def newOp (rule : RuleTable) (mode : Mode) (bits : Row W) (e : Engine W) : Engine W × Response W :=
  respondOk
    ((((e.writeState bits).writeInitState bits).writeRule rule).writeMode mode).markConfigured

/-- `SET_RULE` (43_set_rule_set_boundary_mode.md R92). -/
def setRuleOp (rule : RuleTable) : Engine W → Engine W × Response W :=
  whenConfigured fun e => respondOk (e.writeRule rule)

/-- `SET_BOUNDARY_MODE` (R94). -/
def setBoundaryModeOp (mode : Mode) : Engine W → Engine W × Response W :=
  whenConfigured fun e => respondOk (e.writeMode mode)

/-- Meaning of `NEW` (R70). -/
def execNew (rule : RuleTable) (mode : Mode) (bits : Row Config.W) (s : State) :
    Host.Outcome State Fault Refusal := s.perform (newOp rule mode bits)

/-- Meaning of `SET_RULE` (R92). -/
def execSetRule (rule : RuleTable) (s : State) : Host.Outcome State Fault Refusal :=
  s.perform (setRuleOp rule)

/-- Meaning of `SET_BOUNDARY_MODE` (R94). -/
def execSetBoundaryMode (mode : Mode) (s : State) : Host.Outcome State Fault Refusal :=
  s.perform (setBoundaryModeOp mode)

end Sys2Proof.Machine
end

