-- ==== Sys2Proof/Machine/Reserved.lean ====
section
/-! DEFINITION. The reserved opcode, `op = 0` (spec 30_encoding.md R54, 60_exceptions.md R111). -/

namespace Sys2Proof.Machine

variable {W : Nat}

/-- A word with `op = 0` raises `ReservedOp`, whether the engine is configured or not (R111). -/
def reservedOp (e : Engine W) : Engine W × Response W := raise .reservedOp e

/-- Meaning of the reserved opcode (R54). -/
def execReserved (s : State) : Host.Outcome State Fault Refusal := s.perform reservedOp

end Sys2Proof.Machine
end

