-- ==== Sys2Proof/Machine/Transfer.lean ====
section
/-! DEFINITION. The operations that move a whole row: `READ_STATE` (spec 42_read_state.md), `SET_STATE` and
`RESET` (44_set_state_reset.md). Each is the spec's pseudocode at any width, and beside it the meaning of
the instruction at the canonical one. -/

namespace Sys2Proof.Machine

variable {W : Nat}

/-- `READ_STATE` (42_read_state.md R90): the response carries `STATE`, and no register is written. -/
def readStateOp : Engine W → Engine W × Response W :=
  whenConfigured fun e => respondData e e.state

/-- `SET_STATE` (44_set_state_reset.md R96): the new row and the restore point, together. -/
def setStateOp (bits : Row W) : Engine W → Engine W × Response W :=
  whenConfigured fun e => respondOk ((e.writeState bits).writeInitState bits)

/-- `RESET` (44_set_state_reset.md R99): the row becomes the restore point. -/
def resetOp : Engine W → Engine W × Response W :=
  whenConfigured fun e => respondOk (e.writeState e.initState)

/-- Meaning of `READ_STATE` (R90). -/
def execReadState (s : State) : Host.Outcome State Fault Refusal := s.perform readStateOp

/-- Meaning of `SET_STATE` (R96), also spelled `WRITE_STATE` (R97). -/
def execSetState (bits : Row Config.W) (s : State) : Host.Outcome State Fault Refusal :=
  s.perform (setStateOp bits)

/-- Meaning of `RESET` (R99). -/
def execReset (s : State) : Host.Outcome State Fault Refusal := s.perform resetOp

end Sys2Proof.Machine
end

