-- ==== Sys2Proof/Machine/Update.lean ====
section
/-! DEFINITION. `STEP` (spec 41_step.md): the neighbourhood extractor (R75 to R77), the rule lookup (R78,
R79), the synchronous updater (R80, R81), and the bit-parallel form the spec states to be equal to it
(R82, R83). The machine uses the per-cell form. -/

namespace Sys2Proof.Machine

variable {W : Nat}

/-! ### Neighbourhood extractor, on the old row -/

/-- `self(i)` (R75). -/
def selfOf (X : Row W) (i : Nat) : Bool := cell X i

/-- `left(i)` (R76): at cell 0 the virtual zero under FIXED, the last cell under PERIODIC. -/
def leftOf (mode : Mode) (X : Row W) (i : Nat) : Bool :=
  if i = 0 then
    match mode with
    | .fixed => false
    | .periodic => cell X (W - 1)
  else cell X (i - 1)

/-- `right(i)` (R77): at cell `W-1` the virtual zero under FIXED, cell 0 under PERIODIC. -/
def rightOf (mode : Mode) (X : Row W) (i : Nat) : Bool :=
  if i = W - 1 then
    match mode with
    | .fixed => false
    | .periodic => cell X 0
  else cell X (i + 1)

/-! ### Rule lookup -/

/-- The neighbourhood index `left*4 + self*2 + right` (R78). -/
def neighbourhoodIndex (mode : Mode) (X : Row W) (i : Nat) : Nat :=
  (leftOf mode X i).toNat * 4 + (selfOf X i).toNat * 2 + (rightOf mode X i).toNat

/-- The new value of cell `i`: `RULE[idx(i)]` (R79). -/
def newCell (rule : RuleTable) (mode : Mode) (X : Row W) (i : Nat) : Bool :=
  rule.getLsbD (neighbourhoodIndex mode X i)

/-! ### Synchronous updater -/

/-- The next generation: the row packed from every cell's new value, all read from the old row
(R80, R81). -/
def nextRow (rule : RuleTable) (mode : Mode) (X : Row W) : Row W :=
  packCells W ((List.range W).map (newCell rule mode X))

/-- `STEP` (R81). -/
def stepOp : Engine W → Engine W × Response W :=
  whenConfigured fun e => respondOk (e.writeState (nextRow e.rule e.mode e.state))

/-- Meaning of `STEP` (R81). -/
def execStep (s : State) : Host.Outcome State Fault Refusal := s.perform stepOp

/-! ### The bit-parallel form -/

/-- The bit that wraps round under PERIODIC, as a `W`-bit vector; nothing under FIXED (R82). -/
def wrapBit (W : Nat) (mode : Mode) (b : Bool) : Row W :=
  match mode with
  | .fixed => 0
  | .periodic => BitVec.ofNat W b.toNat

/-- The left-neighbour plane (R82). -/
def leftPlane (mode : Mode) (S : Row W) : Row W :=
  (S >>> 1) ||| (wrapBit W mode (S.getLsbD 0) <<< (W - 1))

/-- The right-neighbour plane (R82). -/
def rightPlane (mode : Mode) (S : Row W) : Row W :=
  (S <<< 1) ||| wrapBit W mode (S.getLsbD (W - 1))

/-- `sel(X, 1) = X` and `sel(X, 0) = ~X` (R83). -/
def sel (X : Row W) (b : Bool) : Row W := if b then X else ~~~X

/-- The mask of the cells whose neighbourhood index is `k` (R83). -/
def neighbourhoodMask (mode : Mode) (S : Row W) (k : Nat) : Row W :=
  sel (leftPlane mode S) (k.testBit 2) &&& sel S (k.testBit 1) &&&
    sel (rightPlane mode S) (k.testBit 0)

/-- The bit-parallel update: the OR of the masks of the entries of `RULE` that are 1 (R83). -/
def nextRowBitParallel (rule : RuleTable) (mode : Mode) (S : Row W) : Row W :=
  (List.range 8).foldl
    (fun acc k => acc ||| (if rule.getLsbD k then neighbourhoodMask mode S k else 0)) 0

end Sys2Proof.Machine
end

