-- ==== Sys2Proof/Machine/Dispatch.lean ====
section
/-! DEFINITION. The meaning of every instruction, one arm per row of the opcode table. -/

namespace Sys2Proof.Machine

def exec (i : Instr) (s : State) : Host.Outcome State Fault Refusal :=
  match i with
  | .reserved => Sys2Proof.Machine.execReserved s
  | .new rule mode bits => Sys2Proof.Machine.execNew rule mode bits s
  | .step => Sys2Proof.Machine.execStep s
  | .readState => Sys2Proof.Machine.execReadState s
  | .setRule rule => Sys2Proof.Machine.execSetRule rule s
  | .setBoundaryMode mode => Sys2Proof.Machine.execSetBoundaryMode mode s
  | .setState bits => Sys2Proof.Machine.execSetState bits s
  | .reset => Sys2Proof.Machine.execReset s

end Sys2Proof.Machine
end

