-- ==== Sys2Proof/Machine/Step.lean ====
section
/-! DEFINITION. One step of the machine: the next thing the host does to it (spec 00_scope.md R8,
70_reset_and_hazards.md R130, R132, R133). -/

namespace Sys2Proof.Machine

/-- One step. A command is decoded and executed whole (R8, 20_memory.md R36). A hard reset, or a command
that a hard reset cuts short, leaves the machine as after hard reset, without a response (R131, R132).
With nothing from the host the engine holds its registers (R8, 60_exceptions.md R121). -/
def step (s : State) : Host.Outcome State Fault Refusal :=
  match s.nextInput with
  | none => .next s
  | some (.command cw, s') => exec (decode cw) s'
  | some (.hardReset, s') => .next s'.hardReset
  | some (.commandCutByHardReset _, s') => .next s'.hardReset

/-- The host issues, as the very next command, the word the opcode table numbers `w` on `nbits` bits. -/
def State.withFetchWord (s : State) (nbits w : Nat) : State := s.issue (tableWord nbits w)

end Sys2Proof.Machine
end

