-- ==== Sys2Proof/Machine/Assembler.lean ====
section
/-! DEFINITION. The assembler syntax (spec 30_encoding.md R59, R60): a line of text to the command word of
its statement. Lexical points the spec does not fix are named in notes/assumptions/11.md. -/

namespace Sys2Proof.Machine

/-- What a line of an assembler program is: nothing but white space and comment, a statement with its
command word, or text the assembler refuses. -/
inductive AsmLine (W : Nat) where
  | blank
  | word (cw : CommandWord W)
  | refused
deriving DecidableEq, Repr

/-! ### Characters -/

def isSpace (c : Char) : Bool := c == ' ' || c == '\t'

/-- The text without white space at either end. -/
def trim (text : List Char) : List Char :=
  ((text.dropWhile isSpace).reverse.dropWhile isSpace).reverse

/-- `;` starts a comment (R59). -/
def dropComment (line : List Char) : List Char := line.takeWhile (· != ';')

/-- The comma-separated parts of the text, each without white space at its ends. -/
def splitAtCommas : List Char → List (List Char)
  | [] => [[]]
  | c :: rest =>
    match splitAtCommas rest with
    | [] => [[c]]
    | part :: parts => if c == ',' then [] :: part :: parts else (c :: part) :: parts

/-- The operands of a statement; no text is no operand. -/
def operandsOf (text : List Char) : List (List Char) :=
  if trim text = [] then [] else (splitAtCommas text).map trim

/-! ### Numerals -/

/-- The value of a digit, with letters of either case for 10 to 15. -/
def digitValue (c : Char) : Option Nat :=
  if 48 ≤ c.toNat ∧ c.toNat ≤ 57 then some (c.toNat - 48)
  else if 65 ≤ c.toNat ∧ c.toNat ≤ 70 then some (c.toNat - 55)
  else if 97 ≤ c.toNat ∧ c.toNat ≤ 102 then some (c.toNat - 87)
  else none

/-- The number read so far, extended by the digits. -/
def readDigits (base : Nat) : List Char → Nat → Option Nat
  | [], acc => some acc
  | c :: rest, acc =>
    match digitValue c with
    | none => none
    | some d => if d < base then readDigits base rest (acc * base + d) else none

/-- The number the digits stand for; no digits are no number. -/
def digits (base : Nat) (text : List Char) : Option Nat :=
  if text = [] then none else readDigits base text 0

/-- A number in decimal, hexadecimal (`0x`) or binary (`0b`) (R59). -/
def numeral : List Char → Option Nat
  | '0' :: 'x' :: ds => digits 16 ds
  | '0' :: 'b' :: ds => digits 2 ds
  | ds => digits 10 ds

/-! ### Operands (R59) -/

/-- A `rule` operand: a number; whether it is 0 to 255 the request's check says. -/
def readRule (text : List Char) : Option Nat := numeral text

/-- A `mode` operand: the word `FIXED` or `PERIODIC`. -/
def readMode (text : List Char) : Option Nat :=
  if text = "FIXED".toList then some 0
  else if text = "PERIODIC".toList then some 1
  else none

/-- The characters of a cell string up to its closing quote, which ends the operand. -/
def readCellString : List Char → Option (List Nat)
  | ['"'] => some []
  | '0' :: rest => (readCellString rest).map (0 :: ·)
  | '1' :: rest => (readCellString rest).map (1 :: ·)
  | _ => none

/-- A `bits` operand, as its cells: a cell string, or a packed numeral of exactly `ceil(W/4)`
hexadecimal digits below `2^W`. Whether a cell string has `W` cells the request's check says. -/
def readRow (W : Nat) : List Char → Option (List Nat)
  | 'c' :: '"' :: rest => readCellString rest
  | '0' :: 'x' :: ds =>
    match digits 16 ds with
    | none => none
    | some v =>
      if ds.length = (W + 3) / 4 ∧ v < 2 ^ W then
        some ((unpack (BitVec.ofNat W v)).map Bool.toNat)
      else none
  | _ => none

/-! ### Statements (R60) -/

/-- The request a statement stands for; `WRITE_STATE` is another spelling of `SET_STATE` (R60,
44_set_state_reset.md R97). There is no `NOP`. -/
def readStatement (W : Nat) (mnemonic : List Char) (operands : List (List Char)) : Option Request :=
  match operands with
  | [] =>
    if mnemonic = "STEP".toList then some .step
    else if mnemonic = "READ_STATE".toList then some .readState
    else if mnemonic = "RESET".toList then some .reset
    else none
  | [a] =>
    if mnemonic = "SET_RULE".toList then (readRule a).map .setRule
    else if mnemonic = "SET_BOUNDARY_MODE".toList then (readMode a).map .setBoundaryMode
    else if mnemonic = "SET_STATE".toList ∨ mnemonic = "WRITE_STATE".toList then
      (readRow W a).map .setState
    else none
  | [a, b, c] =>
    if mnemonic = "NEW".toList then do
      let rule ← readRule a
      let mode ← readMode b
      let cells ← readRow W c
      return .new rule mode cells
    else none
  | _ => none

/-- One line, one command (R59). -/
def assembleLine (W : Nat) (line : List Char) : AsmLine W :=
  match trim (dropComment line) with
  | [] => .blank
  | text =>
    let mnemonic := text.takeWhile (fun c => !isSpace c)
    let operands := operandsOf (text.dropWhile (fun c => !isSpace c))
    match (readStatement W mnemonic operands).bind (Request.toWord W) with
    | none => .refused
    | some cw => .word cw

/-- A program, a line at a time: its command words in order, or nothing if a line is refused. -/
def assemble (W : Nat) : List (List Char) → Option (List (CommandWord W))
  | [] => some []
  | line :: rest =>
    match assembleLine W line, assemble W rest with
    | .blank, words => words
    | .word cw, some words => some (cw :: words)
    | .word _, none => none
    | .refused, _ => none

end Sys2Proof.Machine
end

