-- ==== Sys2Proof/Machine/Execute.lean ====
section
/-! DEFINITION. The execution of command words by an engine of any width (spec 60_exceptions.md R110,
R115; 20_memory.md R38). At the canonical width the machine's `exec` of the decoded word does the
same. -/

namespace Sys2Proof.Machine

variable {W : Nat}

/-- One accepted command: from the registers before it and the command word to the registers after it
and the response (R110). The reserved opcode is tested first (R115). -/
def executeWord (cw : CommandWord W) : Engine W → Engine W × Response W :=
  match (opField cw).toNat with
  | 0 => reservedOp
  | 1 => newOp (ruleField cw) (modeField cw) (bitsField cw)
  | 2 => stepOp
  | 3 => readStateOp
  | 4 => setRuleOp (ruleField cw)
  | 5 => setBoundaryModeOp (modeField cw)
  | 6 => setStateOp (bitsField cw)
  | _ => resetOp

/-- A sequence of commands, one at a time in the order issued, with the responses in command order
(20_memory.md R38, 30_encoding.md R57). -/
def executeAll : List (CommandWord W) → Engine W → Engine W × List (Response W)
  | [], e => (e, [])
  | cw :: rest, e =>
    let first := executeWord cw e
    let others := executeAll rest first.1
    (others.1, first.2 :: others.2)

end Sys2Proof.Machine
end

