-- ==== Sys2Proof/Machine/Port.lean ====
section
/-! DEFINITION. The ports of an engine of any width, one clock at a time (spec 30_encoding.md R58,
70_reset_and_hazards.md R130, R132, R136, R140). A command is accepted when `cmd_valid` and `cmd_ready`
are both high, is in flight in the `LAT(op) + 1` clocks after that one (00_scope.md R4), and is answered in
the last of them, at whose end the registers it changes are written whole. The model says nothing of how
long that is: the latency is an argument, any function of the command word. The spec gives no clock edge,
so which clock shows what is the model's. DESIGN CHOICE, notes/assumptions/9.md. -/

namespace Sys2Proof.Machine

variable {W : Nat}

/-- The input ports during one clock (R58). -/
structure InputPorts (W : Nat) where
  hreset : Bool
  cmdValid : Bool
  cmd : CommandWord W
deriving DecidableEq, Repr

/-- The output ports during one clock (R58). `rsp_valid` is high when there is a response; `rsp_status`
and `rsp_data` are then the response's, and a response without data has no `rsp_data` value (R57). -/
structure OutputPorts (W : Nat) where
  cmdReady : Bool
  response : Option (Response W)
  fault : BitVec 2
deriving DecidableEq, Repr

/-- An engine and the command it has accepted and not yet answered, with the clocks it still
needs before the one that presents its response. -/
structure PortState (W : Nat) where
  engine : Engine W
  inFlight : Option (CommandWord W × Nat)
deriving DecidableEq, Repr

/-- `cmd_ready` is low from the acceptance of a command until its response (R136). Whether it is still low in
the clock that presents the response the spec leaves open, since it gives no clock edge: the model holds it
low there, and high from the next clock on. DESIGN CHOICE, notes/assumptions/9.md. -/
def PortState.cmdReady (p : PortState W) : Bool := p.inFlight.isNone

/-- The response presented during this clock: that of a command whose time is up, unless hard reset
abandons it (R132). -/
def PortState.response (p : PortState W) (pins : InputPorts W) : Option (Response W) :=
  if pins.hreset then none
  else
    match p.inFlight with
    | some (cw, 0) => some (executeWord cw p.engine).2
    | _ => none

/-- The output ports (R58); `fault` shows `FAULT` continuously. Which value that is in the clock that presents
a faulting response the spec leaves open, since it gives no clock edge: the model shows the value from
before the command there, and the new one from the next clock on. DESIGN CHOICE,
notes/assumptions/9.md. -/
def PortState.outputs (p : PortState W) (pins : InputPorts W) : OutputPorts W where
  cmdReady := p.cmdReady
  response := p.response pins
  fault := p.engine.fault

/-- One clock. The registers a command changes are written at the end of the clock that presents its
response (DESIGN CHOICE, notes/assumptions/9.md). `hreset` abandons a command in flight without a response
(R132), and no command is taken up while it is high (DESIGN CHOICE, notes/assumptions/9.md). -/
def PortState.clock (lat : CommandWord W → Nat) (pins : InputPorts W) (p : PortState W) :
    PortState W :=
  if pins.hreset then { engine := p.engine.hardReset, inFlight := none }
  else
    match p.inFlight with
    | none => if pins.cmdValid then { p with inFlight := some (pins.cmd, lat pins.cmd) } else p
    | some (cw, 0) => { engine := (executeWord cw p.engine).1, inFlight := none }
    | some (cw, n + 1) => { p with inFlight := some (cw, n) }

/-- A run of clocks: the state after it and the responses presented, in order. -/
def PortState.run (lat : CommandWord W → Nat) :
    List (InputPorts W) → PortState W → PortState W × List (Response W)
  | [], p => (p, [])
  | pins :: rest, p =>
    let others := PortState.run lat rest (p.clock lat pins)
    (others.1, (p.response pins).toList ++ others.2)

end Sys2Proof.Machine
end

