-- ==== Sys2Proof/Machine/System.lean ====
section
/-! DEFINITION. A system of several engines: independent copies of the machine, each with its own command
stream (spec 10_state.md R26, 60_exceptions.md R122). -/

namespace Sys2Proof.Machine

/-- One engine of a system takes a step; a step that gives no next state changes nothing. -/
def stepEngine (n : Nat) (system : List State) : List State :=
  match system[n]? with
  | none => system
  | some s =>
    match step s with
    | .next t => system.set n t
    | .fault _ => system
    | .refused _ => system

end Sys2Proof.Machine
end

