-- ==== Sys2Proof/Safety.lean ====
section
/-! DEFINITION. What counts as a safe run, in the terms the claims use: the fault-free premise of
spec 60_exceptions.md R114, the invariant of the machine, the row computations the claims compare, and
the classes of commands the rules speak of. -/

namespace Sys2Proof.Machine

variable {W : Nat}

/-! ### Faults -/

/-- No fault since hard reset: the premise and conclusion a claim about a run carries (R114). -/
def Engine.NoFault (e : Engine W) : Prop := e.fault = 0

/-- The code of the first response that is a fault, or 0: what `FAULT` holds of a run that began with
`FAULT = 0` (10_state.md R19). -/
def firstFaultCode : List (Response W) → BitVec 2
  | [] => 0
  | r :: rest => if r.status = .ok then firstFaultCode rest else r.status.code

/-! ### The invariant of the machine -/

/-- A response carries data only with status `OK` (30_encoding.md R57). -/
def Response.Legal (r : Response W) : Prop := r.data.isSome → r.status = .ok

/-- `FAULT` never holds 3 (10_state.md R19), a fault it holds was answered to the host (60_exceptions.md
R113), a configured engine has answered a command `OK` (only `NEW` configures it, 10_state.md R18), and
every response given is legal. -/
structure State.Inv (s : State) : Prop where
  fault_legal : s.engine.fault ≠ 3
  fault_answered : s.engine.fault ≠ 0 → ∃ r ∈ s.responses, r.status.code = s.engine.fault
  configured_answered : s.engine.configured = true → ∃ r ∈ s.responses, r.status = .ok
  responses_legal : ∀ r ∈ s.responses, r.Legal

/-! ### Classes of command words -/

/-- The word is one of `NEW` and `SET_STATE`, the operations that move the restore point
(10_state.md R12). -/
def movesRestorePoint (cw : CommandWord W) : Bool :=
  opField cw == 1 || opField cw == 6

/-- The word is one of the operations that write `STATE` (10_state.md R11). -/
def writesRow (cw : CommandWord W) : Bool :=
  opField cw == 1 || opField cw == 2 || opField cw == 6 || opField cw == 7

/-! ### Rows -/

/-- The row with cell `i` set to `b`. -/
def setCell (X : Row W) (i : Nat) (b : Bool) : Row W :=
  packCells W ((unpack X).set i b)

/-- The WRONG computation `INPLACE` of 41_step.md R88: cells visited from left to right, each overwritten
before the next is read. Claims say that `STEP` differs from it; the machine never uses it. -/
def inPlaceRow (rule : RuleTable) (mode : Mode) (X : Row W) : Row W :=
  (List.range W).foldl (fun Y i => setCell Y i (newCell rule mode Y i)) X

end Sys2Proof.Machine
end

