-- ==== Sys2Proof/Certificates/Slice0/Obligations.lean ====
section
/-! DEFINITION. The statements for the provers, from the numbered rules of the spec, file by file. Each
docstring names the rule it formalises. A statement at every width `W` speaks of the engine's operations;
one about `exec` or `step` speaks of the machine at the canonical width. -/

open Sys2Proof Sys2Proof.Machine

/-! ### 30_encoding.md -/

/-- R50: the command word as a number, and every word is the assembly of its four fields. -/
def Obligations.CommandWordIsBitsRuleModeOp : Prop :=
  ∀ (W : Nat),
    (∀ (bits : Row W) (rule : RuleTable) (mode : Mode) (op : BitVec 3),
      (assembleWord bits rule mode op).toNat =
        bits.toNat * 4096 + rule.toNat * 16 + (if mode = .periodic then 1 else 0) * 8 + op.toNat) ∧
    (∀ cw : CommandWord W,
      assembleWord (bitsField cw) (ruleField cw) (modeField cw) (opField cw) = cw)

/-- R51: the fields, bit by bit, with cell `i` of the row at `CW[W+11-i]`; and every value of every field
occurs on some word, so every value is legal. -/
def Obligations.FieldsOfTheCommandWordBitByBit : Prop :=
  ∀ (W : Nat) (cw : CommandWord W),
    (∀ j < 3, (opField cw).getLsbD j = cw.getLsbD j) ∧
    (modeField cw = if cw.getLsbD 3 then .periodic else .fixed) ∧
    (∀ k < 8, (ruleField cw).getLsbD k = cw.getLsbD (4 + k)) ∧
    (∀ j < W, (bitsField cw).getLsbD j = cw.getLsbD (12 + j)) ∧
    (∀ i < W, cell (bitsField cw) i = cw.getLsbD (W + 11 - i)) ∧
    (∀ (bits : Row W) (rule : RuleTable) (mode : Mode) (op : BitVec 3),
      ∃ v : CommandWord W,
        bitsField v = bits ∧ ruleField v = rule ∧ modeField v = mode ∧ opField v = op)

/-- R55: decoding is total and follows `op = CW[2:0]`, and over the command word exactly one row of the
opcode table (mask 7, pattern `op`) matches, the one with the decoded instruction's mnemonic. -/
def Obligations.DecodeFollowsTheOpcodeMap : Prop :=
  ∀ cw : CommandWord Config.W,
    (opField cw = 0 → decode cw = .reserved) ∧
    (opField cw = 1 → decode cw = .new (ruleField cw) (modeField cw) (bitsField cw)) ∧
    (opField cw = 2 → decode cw = .step) ∧
    (opField cw = 3 → decode cw = .readState) ∧
    (opField cw = 4 → decode cw = .setRule (ruleField cw)) ∧
    (opField cw = 5 → decode cw = .setBoundaryMode (modeField cw)) ∧
    (opField cw = 6 → decode cw = .setState (bitsField cw)) ∧
    (opField cw = 7 → decode cw = .reset) ∧
    (∃ row : OpcodeRow, row.mask = 7 ∧ row.pattern = (opField cw).toNat ∧
      row.mnemonic = (decode cw).mnemonic ∧
      opcodeTable.filter (fun r => r.Matches cw) = [row])

/-- R53: operand fields an operation does not use are ignored: two words with the same opcode that differ
only in ignored fields are the same command, and the encoder writes zero in every ignored field. -/
def Obligations.IgnoredFieldsHaveNoEffect : Prop :=
  (∀ cw cw' : CommandWord Config.W, opField cw = opField cw' →
    (opField cw = 1 ∨ opField cw = 4 → ruleField cw = ruleField cw') →
    (opField cw = 1 ∨ opField cw = 5 → modeField cw = modeField cw') →
    (opField cw = 1 ∨ opField cw = 6 → bitsField cw = bitsField cw') →
    decode cw = decode cw') ∧
  (∀ i : Instr,
    (i.opcode ≠ 1 ∧ i.opcode ≠ 4 → ruleField (encode i) = 0) ∧
    (i.opcode ≠ 1 ∧ i.opcode ≠ 5 → modeField (encode i) = .fixed) ∧
    (i.opcode ≠ 1 ∧ i.opcode ≠ 6 → bitsField (encode i) = 0))

/-- Decode and encode agree: decoding an encoded instruction gives it back, with every operand at every
value, and encoding a decoded word gives the word back up to the ignored fields. -/
def Obligations.DecodeOfEncodeIsTheInstruction : Prop :=
  (∀ i : Instr, decode (encode i) = i) ∧
  (∀ cw : CommandWord Config.W,
    opField (encode (decode cw)) = opField cw ∧
    (opField cw = 1 ∨ opField cw = 4 → ruleField (encode (decode cw)) = ruleField cw) ∧
    (opField cw = 1 ∨ opField cw = 5 → modeField (encode (decode cw)) = modeField cw) ∧
    (opField cw = 1 ∨ opField cw = 6 → bitsField (encode (decode cw)) = bitsField cw))

/-- The command words of R60 and 95_test_vectors.md, one of each operation, decode to the statements they
are written for (a check of fixed words). -/
def Obligations.WrittenOutWordsDecode : Prop :=
  decode 0xFFFFFFFFFFFFFFFFFFFFFFFFFFFFFFFF1E1 = .new 30 .fixed (BitVec.allOnes 128) ∧
  decode 0x2 = .step ∧ decode 0x3 = .readState ∧ decode 0x6E4 = .setRule 110 ∧
  decode 0x5 = .setBoundaryMode .fixed ∧ decode 0xD = .setBoundaryMode .periodic ∧
  decode 0x10006 = .setState 0x10 ∧ decode 0x7 = .reset ∧ decode 0xABCD0 = .reserved

/-- R57: every command produces exactly one response, in command order; only a successful `READ_STATE`
carries data; the status codes are 0, 1 and 2, and 3 is never produced; status 1 answers the reserved
opcode and status 2 an operation other than `NEW` on an unconfigured engine, both with no register but
`FAULT` changed. -/
def Obligations.OneResponsePerCommandInOrder : Prop :=
  (∀ (W : Nat) (cws : List (CommandWord W)) (e : Engine W),
    (executeAll cws e).2.length = cws.length ∧
    (∀ (k : Nat) (cw : CommandWord W) (r : Response W),
      cws[k]? = some cw → (executeAll cws e).2[k]? = some r →
        r = (executeWord cw (executeAll (cws.take k) e).1).2 ∧
        (r.data.isSome = true ↔ opField cw = 3 ∧ r.status = .ok))) ∧
  (∀ (W : Nat) (cw : CommandWord W) (e : Engine W),
    ((executeWord cw e).2.status = .fault .reservedOp ↔ opField cw = 0) ∧
    ((executeWord cw e).2.status = .fault .notConfigured ↔
      opField cw ≠ 0 ∧ opField cw ≠ 1 ∧ e.configured = false) ∧
    ((executeWord cw e).2.status ≠ .ok →
      (executeWord cw e).1 = { e with fault := (executeWord cw e).1.fault })) ∧
  Status.ok.code = 0 ∧ (Status.fault .reservedOp).code = 1 ∧
  (Status.fault .notConfigured).code = 2 ∧ (∀ st : Status, st.code ≠ 3)

/-- R97: `WRITE_STATE` is the same operation as `SET_STATE`, whatever the operands are written as. -/
def Obligations.WriteStateIsSetState : Prop :=
  ∀ (W : Nat) (operands : List (List Char)),
    readStatement W "WRITE_STATE".toList operands = readStatement W "SET_STATE".toList operands

/-- 30 section 4: the line `SET_STATE c"..."` assembles to the word `bits*4096 + 6` whose row has the
string's characters as cells, first character cell 0, if the string has exactly `W` characters, and is
refused otherwise. -/
def Obligations.CellStringAssemblesToItsRow : Prop :=
  ∀ (W : Nat) (cells : List Bool),
    assembleLine W ("SET_STATE c\"".toList ++ cells.map (fun b => if b then '1' else '0') ++ ['"']) =
      if cells.length = W then .word (assembleWord (packCells W cells) 0 .fixed 6) else .refused

/-! ### 20_memory.md -/

/-- R31: `pack` of a sequence of length `W` is the sum of `b_i * 2^(W-1-i)`, so that cell `i` is `b_i`; it
is defined for no other length. -/
def Obligations.PackIsTheBigEndianNumber : Prop :=
  ∀ (W : Nat) (seq : List Bool),
    (seq.length = W → ∃ X : Row W, pack W seq = some X ∧
      X.toNat = ∑ i ∈ Finset.range W, (seq.getD i false).toNat * 2 ^ (W - 1 - i) ∧
      ∀ i < W, some (cell X i) = seq[i]?) ∧
    (seq.length ≠ W → pack W seq = none)

/-- R32: `unpack` is the sequence `X[W-1], ..., X[0]`, of length exactly `W`. -/
def Obligations.UnpackIsMostSignificantFirst : Prop :=
  ∀ (W : Nat) (X : Row W),
    (unpack X).length = W ∧
    ∀ i < W, (unpack X)[i]? = some (X.getLsbD (W - 1 - i)) ∧ (unpack X)[i]? = some (cell X i)

/-- R33: `pack` and `unpack` are inverse. -/
def Obligations.PackAndUnpackAreInverse : Prop :=
  ∀ (W : Nat),
    (∀ seq : List Bool, seq.length = W → (pack W seq).map unpack = some seq) ∧
    (∀ X : Row W, pack W (unpack X) = some X)

/-- 20 section 3, 60 section 6: a request whose sequence has not exactly `W` elements, or has an element that is not 0 or
1, or whose rule or mode is out of range, has no command word; a request that keeps the contract has
one. -/
def Obligations.ContractViolationsHaveNoCommandWord : Prop :=
  ∀ (W : Nat) (request : Request),
    (request.WellFormed W = true → ∃ cw : CommandWord W, request.toWord W = some cw) ∧
    (request.WellFormed W = false → request.toWord W = none) ∧
    (∀ rule mode cells, request = .new rule mode cells →
      (256 ≤ rule ∨ 2 ≤ mode ∨ cells.length ≠ W ∨ (∃ c ∈ cells, 2 ≤ c)) → request.toWord W = none) ∧
    (∀ rule, request = .setRule rule → 256 ≤ rule → request.toWord W = none) ∧
    (∀ mode, request = .setBoundaryMode mode → 2 ≤ mode → request.toWord W = none) ∧
    (∀ cells, request = .setState cells → (cells.length ≠ W ∨ (∃ c ∈ cells, 2 ≤ c)) →
      request.toWord W = none)

/-- R37: `READ_STATE` changes no register, and two of them with no command between that writes `STATE`
return the same data. -/
def Obligations.ReadStateIsPure : Prop :=
  ∀ (W : Nat) (e : Engine W), e.configured = true →
    (readStateOp e).1 = e ∧
    ∀ cws : List (CommandWord W), (∀ cw ∈ cws, writesRow cw = false) →
      (readStateOp (executeAll cws (readStateOp e).1).1).2 = (readStateOp e).2

/-- 20_memory.md section 5 (R38): commands are executed one at a time in the order the host issued them, each complete before the
next, each seeing the effects of every earlier one: a run of the machine over the issued commands is their
execution in sequence, and leaves what the host issues later alone. And what a program may rely on: a
`READ_STATE` after a `STEP` returns the stepped row, a `STEP` after a `SET_RULE` uses the new rule, a
`RESET` after a `SET_STATE` restores the row that it wrote. The list of inputs and the order in which a step
takes them are the model's own (notes/assumptions/3.md). -/
def Obligations.RunIsTheSequenceOfCommands : Prop :=
  (∀ (s : State) (cws : List (CommandWord Config.W)) (later : List (HostInput Config.W)),
    s.inputs = cws.map .command ++ later →
    Sys2Proof.core.run cws.length s =
      .next { engine := (executeAll cws s.engine).1, inputs := later,
              responses := s.responses ++ (executeAll cws s.engine).2 }) ∧
  (∀ (W : Nat) (e : Engine W) (stepWord readWord ruleWord stateWord resetWord : CommandWord W),
    e.configured = true → opField stepWord = 2 → opField readWord = 3 → opField ruleWord = 4 →
    opField stateWord = 6 → opField resetWord = 7 →
    (executeAll [stepWord, readWord] e).2 =
      [⟨.ok, none⟩, ⟨.ok, some (nextRow e.rule e.mode e.state)⟩] ∧
    (executeAll [ruleWord, stepWord] e).1.state = nextRow (ruleField ruleWord) e.mode e.state ∧
    (executeAll [stateWord, resetWord] e).1.state = bitsField stateWord)

/-- R39: a configuration write changes its register at once and nothing else, and the very next `STEP`
uses the new value on the row as it was. -/
def Obligations.ConfigurationWriteIsUsedByTheNextStep : Prop :=
  ∀ (W : Nat) (e : Engine W), e.configured = true →
    (∀ rule : RuleTable,
      (setRuleOp rule e).1 = { e with rule := rule } ∧
      (stepOp (setRuleOp rule e).1).1 =
        { e with rule := rule, state := nextRow rule e.mode e.state }) ∧
    (∀ mode : Mode,
      (setBoundaryModeOp mode e).1 = { e with mode := mode } ∧
      (stepOp (setBoundaryModeOp mode e).1).1 =
        { e with mode := mode, state := nextRow e.rule mode e.state })

/-! ### 40_new.md -/

/-- R70: `NEW` loads the row, the restore point, the rule and the mode, sets `CONFIGURED`, leaves `FAULT`
alone and responds `OK`, on every engine, configured or not; nothing else changes. -/
def Obligations.NewConfiguresTheEngine : Prop :=
  (∀ (rule : RuleTable) (mode : Mode) (bits : Row Config.W) (s : State),
    exec (.new rule mode bits) s =
      .next { s with
        engine := { s.engine with
          state := bits, initState := bits, rule := rule, mode := mode, configured := true },
        responses := s.responses ++ [⟨.ok, none⟩] }) ∧
  (∀ (rule : RuleTable) (mode : Mode) (bits : Row Config.W),
    (encode (.new rule mode bits)).toNat =
      bits.toNat * 4096 + rule.toNat * 16 + (if mode = .periodic then 1 else 0) * 8 + 1) ∧
  (∀ cw : CommandWord Config.W, opField cw = 1 →
    decode cw = .new (ruleField cw) (modeField cw) (bitsField cw))

/-- R71: in the sequence form of the operand, cell `i` of `STATE` and of `INIT_STATE` becomes `seq[i]`; a
sequence whose length is not `W` is not an operand. -/
def Obligations.NewFromASequence : Prop :=
  ∀ (rule mode : Nat) (cells : List Nat) (s : State), rule < 256 → mode < 2 → (∀ c ∈ cells, c < 2) →
    (cells.length = Config.W →
      ∃ (cw : CommandWord Config.W) (bits : Row Config.W) (t : State),
        (Request.new rule mode cells).toWord Config.W = some cw ∧
        pack Config.W (cells.map (fun c => c == 1)) = some bits ∧
        decode cw = .new (BitVec.ofNat 8 rule) (if mode = 1 then .periodic else .fixed) bits ∧
        exec (decode cw) s = .next t ∧
        (∀ i < Config.W,
          some (cell t.engine.state i).toNat = cells[i]? ∧
          some (cell t.engine.initState i).toNat = cells[i]?)) ∧
    (cells.length ≠ Config.W → (Request.new rule mode cells).toWord Config.W = none)

/-- R72: `NEW rule, mode, bits; READ_STATE` returns data equal to `bits`. -/
def Obligations.NewThenReadReturnsTheRow : Prop :=
  ∀ (W : Nat) (rule : RuleTable) (mode : Mode) (bits : Row W) (e : Engine W),
    (executeAll [assembleWord bits rule mode 1, assembleWord 0 0 .fixed 3] e).2 =
      [⟨.ok, none⟩, ⟨.ok, some bits⟩]

/-! ### 41_step.md -/

/-- R75, R76, R77: the neighbourhood extractor in cell numbering and in bit numbering, with its two edge
clauses, which are both taken by the one cell of a row of width 1. -/
def Obligations.NeighbourhoodExtractor : Prop :=
  ∀ (W : Nat) (X : Row W) (mode : Mode),
    (∀ i < W, selfOf X i = cell X i ∧ selfOf X i = X.getLsbD (W - 1 - i)) ∧
    (∀ i < W, 1 ≤ i → leftOf mode X i = cell X (i - 1)) ∧
    (0 < W → leftOf .fixed X 0 = false ∧ leftOf .periodic X 0 = cell X (W - 1)) ∧
    (∀ i, i + 2 ≤ W → rightOf mode X i = cell X (i + 1)) ∧
    (0 < W → rightOf .fixed X (W - 1) = false ∧ rightOf .periodic X (W - 1) = cell X 0) ∧
    (∀ j, j + 2 ≤ W → leftOf mode X (W - 1 - j) = X.getLsbD (j + 1)) ∧
    (0 < W → leftOf .periodic X 0 = X.getLsbD 0) ∧
    (∀ j < W, 1 ≤ j → rightOf mode X (W - 1 - j) = X.getLsbD (j - 1)) ∧
    (0 < W → rightOf .periodic X (W - 1) = X.getLsbD (W - 1))

/-- R78, R79: every cell of the next generation is `RULE[left*4 + self*2 + right]`, the index (in 0 to 7)
read from the old row. -/
def Obligations.NextRowIsTheRuleLookupOfEveryCell : Prop :=
  ∀ (W : Nat) (rule : RuleTable) (mode : Mode) (X : Row W) (i : Nat), i < W →
    neighbourhoodIndex mode X i =
      (leftOf mode X i).toNat * 4 + (selfOf X i).toNat * 2 + (rightOf mode X i).toNat ∧
    neighbourhoodIndex mode X i < 8 ∧
    cell (nextRow rule mode X) i = rule.getLsbD (neighbourhoodIndex mode X i)

/-- R81: `STEP` on a configured engine writes `STATE` only, with the next generation; on an unconfigured
one it raises `NotConfigured`; its encoding; and the corner cases of the all-zeros and all-ones rows. -/
def Obligations.StepAdvancesOneGeneration : Prop :=
  (∀ s : State, s.engine.configured = true →
    ∃ next : Row Config.W,
      (∀ i < Config.W, cell next i =
        s.engine.rule.getLsbD
          ((leftOf s.engine.mode s.engine.state i).toNat * 4 + (cell s.engine.state i).toNat * 2 +
            (rightOf s.engine.mode s.engine.state i).toNat)) ∧
      exec .step s =
        .next { s with
          engine := { s.engine with state := next }, responses := s.responses ++ [⟨.ok, none⟩] }) ∧
  (∀ s : State, s.engine.configured = false →
    exec .step s =
      .next { s with
        engine := { s.engine with fault := if s.engine.fault = 0 then 2 else s.engine.fault },
        responses := s.responses ++ [⟨.fault .notConfigured, none⟩] }) ∧
  (∀ cw : CommandWord Config.W, opField cw = 2 → decode cw = .step) ∧ encode .step = 2 ∧
  (∀ (W : Nat) (rule : RuleTable) (mode : Mode) (i : Nat), i < W →
    cell (nextRow rule mode (0 : Row W)) i = rule.getLsbD 0 ∧
    cell (nextRow rule .periodic (BitVec.allOnes W)) i = rule.getLsbD 7 ∧
    (2 ≤ W → cell (nextRow rule .fixed (BitVec.allOnes W)) i =
      rule.getLsbD (if i = 0 then 3 else if i = W - 1 then 6 else 7)))

/-- R82: the neighbour planes hold, bit by bit, the left and right neighbours; under PERIODIC they are
rotations, under FIXED plain shifts; and at width 1 they are 0 or the row itself. -/
def Obligations.NeighbourPlanesHoldTheNeighbours : Prop :=
  ∀ (W : Nat) (S : Row W),
    (∀ (mode : Mode), ∀ i < W,
      (leftPlane mode S).getLsbD (W - 1 - i) = leftOf mode S i ∧
      (rightPlane mode S).getLsbD (W - 1 - i) = rightOf mode S i) ∧
    (0 < W → leftPlane .periodic S = S.rotateRight 1 ∧ rightPlane .periodic S = S.rotateLeft 1) ∧
    leftPlane .fixed S = S >>> 1 ∧ rightPlane .fixed S = S <<< 1 ∧
    (W = 1 → leftPlane .fixed S = 0 ∧ rightPlane .fixed S = 0 ∧
      leftPlane .periodic S = S ∧ rightPlane .periodic S = S)

/-- R83: the bit-parallel update is equal to the per-cell one at every width; it is the rule's entry for
`LP[j]*4 + S[j]*2 + RP[j]` in every bit `j`; and the eight masks are disjoint and cover the row. -/
def Obligations.BitParallelUpdateEqualsThePerCellUpdate : Prop :=
  ∀ (W : Nat) (rule : RuleTable) (mode : Mode) (S : Row W),
    nextRowBitParallel rule mode S = nextRow rule mode S ∧
    nextRowBitParallel 0 mode S = 0 ∧
    (∀ j < W,
      (nextRowBitParallel rule mode S).getLsbD j =
        rule.getLsbD (((leftPlane mode S).getLsbD j).toNat * 4 + (S.getLsbD j).toNat * 2 +
          ((rightPlane mode S).getLsbD j).toNat) ∧
      ∃ k < 8, ∀ k' < 8, (neighbourhoodMask mode S k').getLsbD j = decide (k' = k))

/-- R84: under rule 0 one `STEP` from any row gives all zeros, under rule 255 all ones, in either mode. -/
def Obligations.ConstantRules : Prop :=
  ∀ (W : Nat) (e : Engine W), e.configured = true →
    (e.rule = 0 → (stepOp e).1.state = 0) ∧
    (e.rule = 255 → (stepOp e).1.state = BitVec.allOnes W ∧ (stepOp e).1.state.toNat = 2 ^ W - 1)

/-- R85: the edges of the all-ones row: rule 30 under FIXED gives `2^(W-1)`; rule 128 gives all ones under
PERIODIC and `2^(W-1) - 2` under FIXED, cells 0 and `W-1` becoming 0 and the others staying 1. -/
def Obligations.EdgesOfTheAllOnesRow : Prop :=
  ∀ (W : Nat) (X : Row W), 2 ≤ W → X.toNat = 2 ^ W - 1 →
    (nextRow 30 .fixed X).toNat = 2 ^ (W - 1) ∧
    (∀ i < W, cell (nextRow 30 .fixed X) i = decide (i = 0)) ∧
    (nextRow 128 .periodic X).toNat = 2 ^ W - 1 ∧
    (nextRow 128 .fixed X).toNat = 2 ^ (W - 1) - 2 ∧
    (∀ i < W, cell (nextRow 128 .fixed X) i = (decide (i ≠ 0) && decide (i ≠ W - 1)))

/-- R86: rows of one and of two cells, for every rule; and R85 (a) at width 1. -/
def Obligations.NarrowRows : Prop :=
  (∀ (rule : RuleTable) (X : Row 1),
    (cell (nextRow rule .fixed X) 0 = if X = 1 then rule.getLsbD 2 else rule.getLsbD 0) ∧
    (cell (nextRow rule .periodic X) 0 = if X = 1 then rule.getLsbD 7 else rule.getLsbD 0)) ∧
  (∀ (rule : RuleTable) (X : Row 2) (c0 c1 : Nat), c0 = (cell X 0).toNat → c1 = (cell X 1).toNat →
    cell (nextRow rule .periodic X) 0 = rule.getLsbD (c1 * 4 + c0 * 2 + c1) ∧
    cell (nextRow rule .periodic X) 1 = rule.getLsbD (c0 * 4 + c1 * 2 + c0) ∧
    cell (nextRow rule .fixed X) 0 = rule.getLsbD (c0 * 2 + c1) ∧
    cell (nextRow rule .fixed X) 1 = rule.getLsbD (c0 * 4 + c1 * 2)) ∧
  nextRow 30 .fixed (1 : Row 1) = 1

/-- R87: a new cell depends on at most three cells of the old row; the mode can change only cells 0 and
`W-1`; and when those two cells of the old row are 0 the mode changes nothing. -/
def Obligations.StepIsLocal : Prop :=
  ∀ (W : Nat) (rule : RuleTable) (X : Row W),
    (∀ (mode : Mode) (i : Nat), i < W →
      ∀ Y : Row W,
        cell Y ((i + W - 1) % W) = cell X ((i + W - 1) % W) → cell Y i = cell X i →
        cell Y ((i + 1) % W) = cell X ((i + 1) % W) →
        cell (nextRow rule mode Y) i = cell (nextRow rule mode X) i) ∧
    (∀ i, 1 ≤ i → i + 2 ≤ W →
      cell (nextRow rule .fixed X) i = cell (nextRow rule .periodic X) i) ∧
    (cell X 0 = false → cell X (W - 1) = false → nextRow rule .fixed X = nextRow rule .periodic X)

/-- R88: the inputs on which the synchronous update and the forbidden in-place one differ. -/
def Obligations.SynchronousUpdateIsNotInPlace : Prop :=
  nextRow 90 .fixed (0b00010000 : Row 8) = 0b00101000 ∧
  inPlaceRow 90 .fixed (0b00010000 : Row 8) = 0b00111111 ∧
  nextRow 30 .fixed (0b00010000 : Row 8) = 0b00111000 ∧
  inPlaceRow 30 .fixed (0b00010000 : Row 8) = 0b00100000

/-- R89: `STEP` neither reads nor writes `INIT_STATE`, and `n` consecutive `STEP` commands apply the map of
one `STEP` `n` times. -/
def Obligations.StepsIterateTheRowMap : Prop :=
  ∀ (W : Nat) (e : Engine W), e.configured = true →
    (∀ row : Row W,
      stepOp { e with initState := row } = ({ (stepOp e).1 with initState := row }, (stepOp e).2)) ∧
    (stepOp e).1.initState = e.initState ∧
    (∀ (n : Nat) (cw : CommandWord W), opField cw = 2 →
      (executeAll (List.replicate n cw) e).1 =
        { e with state := (nextRow e.rule e.mode)^[n] e.state })

/-! ### 42_read_state.md, 43_set_rule_set_boundary_mode.md, 44_set_state_reset.md -/

/-- R90: `READ_STATE` responds with `STATE` and changes no register; in sequence form the data has `W`
elements, element `i` being `STATE[W-1-i]`; on an unconfigured engine it raises `NotConfigured` without
data; its encoding. -/
def Obligations.ReadStateReturnsTheRow : Prop :=
  (∀ s : State, s.engine.configured = true →
    exec .readState s =
      .next { s with responses := s.responses ++ [⟨.ok, some s.engine.state⟩] }) ∧
  (∀ s : State, s.engine.configured = false →
    exec .readState s =
      .next { s with
        engine := { s.engine with fault := if s.engine.fault = 0 then 2 else s.engine.fault },
        responses := s.responses ++ [⟨.fault .notConfigured, none⟩] }) ∧
  (∀ X : Row Config.W, (unpack X).length = Config.W ∧
    ∀ i < Config.W, (unpack X)[i]? = some (X.getLsbD (Config.W - 1 - i))) ∧
  (∀ cw : CommandWord Config.W, opField cw = 3 → decode cw = .readState) ∧ encode .readState = 3

/-- R92: `SET_RULE` writes `RULE` only; on an unconfigured engine it raises `NotConfigured`; its
encoding. -/
def Obligations.SetRuleWritesTheRuleOnly : Prop :=
  (∀ (rule : RuleTable) (s : State), s.engine.configured = true →
    exec (.setRule rule) s =
      .next { s with
        engine := { s.engine with rule := rule }, responses := s.responses ++ [⟨.ok, none⟩] }) ∧
  (∀ (rule : RuleTable) (s : State), s.engine.configured = false →
    exec (.setRule rule) s =
      .next { s with
        engine := { s.engine with fault := if s.engine.fault = 0 then 2 else s.engine.fault },
        responses := s.responses ++ [⟨.fault .notConfigured, none⟩] }) ∧
  (∀ cw : CommandWord Config.W, opField cw = 4 → decode cw = .setRule (ruleField cw)) ∧
  (∀ rule : RuleTable, (encode (.setRule rule)).toNat = rule.toNat * 16 + 4)

/-- R93, R95: `SET_RULE` and `SET_BOUNDARY_MODE` are not retroactive: a `READ_STATE` immediately before and
immediately after returns the same data. -/
def Obligations.ConfigurationWritesAreNotRetroactive : Prop :=
  ∀ (W : Nat) (e : Engine W), e.configured = true →
    (∀ rule : RuleTable,
      (setRuleOp rule e).1.state = e.state ∧
      (readStateOp (setRuleOp rule (readStateOp e).1).1).2 = (readStateOp e).2) ∧
    (∀ mode : Mode,
      (setBoundaryModeOp mode e).1.state = e.state ∧
      (readStateOp (setBoundaryModeOp mode (readStateOp e).1).1).2 = (readStateOp e).2)

/-- R94: `SET_BOUNDARY_MODE` writes `MODE` only; on an unconfigured engine it raises `NotConfigured`; its
encoding. -/
def Obligations.SetBoundaryModeWritesTheModeOnly : Prop :=
  (∀ (mode : Mode) (s : State), s.engine.configured = true →
    exec (.setBoundaryMode mode) s =
      .next { s with
        engine := { s.engine with mode := mode }, responses := s.responses ++ [⟨.ok, none⟩] }) ∧
  (∀ (mode : Mode) (s : State), s.engine.configured = false →
    exec (.setBoundaryMode mode) s =
      .next { s with
        engine := { s.engine with fault := if s.engine.fault = 0 then 2 else s.engine.fault },
        responses := s.responses ++ [⟨.fault .notConfigured, none⟩] }) ∧
  (∀ cw : CommandWord Config.W, opField cw = 5 → decode cw = .setBoundaryMode (modeField cw)) ∧
  encode (.setBoundaryMode .fixed) = 5 ∧ encode (.setBoundaryMode .periodic) = 0xD

/-- R96: `SET_STATE` writes the row and the restore point, and nothing else; on an unconfigured engine it
raises `NotConfigured`; its encoding. -/
def Obligations.SetStateMovesTheRestorePoint : Prop :=
  (∀ (bits : Row Config.W) (s : State), s.engine.configured = true →
    exec (.setState bits) s =
      .next { s with
        engine := { s.engine with state := bits, initState := bits },
        responses := s.responses ++ [⟨.ok, none⟩] }) ∧
  (∀ (bits : Row Config.W) (s : State), s.engine.configured = false →
    exec (.setState bits) s =
      .next { s with
        engine := { s.engine with fault := if s.engine.fault = 0 then 2 else s.engine.fault },
        responses := s.responses ++ [⟨.fault .notConfigured, none⟩] }) ∧
  (∀ cw : CommandWord Config.W, opField cw = 6 → decode cw = .setState (bitsField cw)) ∧
  (∀ bits : Row Config.W, (encode (.setState bits)).toNat = bits.toNat * 4096 + 6)

/-- R98: `SET_STATE bits; READ_STATE` returns data equal to `bits`, whatever `RULE` and `MODE` hold. -/
def Obligations.SetStateThenReadReturnsTheRow : Prop :=
  ∀ (W : Nat) (bits : Row W) (e : Engine W), e.configured = true →
    (executeAll [assembleWord bits 0 .fixed 6, assembleWord 0 0 .fixed 3] e).2 =
      [⟨.ok, none⟩, ⟨.ok, some bits⟩]

/-- R99: `RESET` copies `INIT_STATE` to `STATE` and writes nothing else; a second one in a row changes no
register; directly after `NEW` or `SET_STATE` it changes no register; on an unconfigured engine it raises
`NotConfigured`; its encoding. -/
def Obligations.ResetRestoresTheRow : Prop :=
  (∀ s : State, s.engine.configured = true →
    exec .reset s =
      .next { s with
        engine := { s.engine with state := s.engine.initState },
        responses := s.responses ++ [⟨.ok, none⟩] }) ∧
  (∀ s : State, s.engine.configured = false →
    exec .reset s =
      .next { s with
        engine := { s.engine with fault := if s.engine.fault = 0 then 2 else s.engine.fault },
        responses := s.responses ++ [⟨.fault .notConfigured, none⟩] }) ∧
  (∀ s t u : State, s.engine.configured = true → exec .reset s = .next t → exec .reset t = .next u →
    u.engine = t.engine) ∧
  (∀ (i : Instr) (s t u : State), s.engine.configured = true → (i.opcode = 1 ∨ i.opcode = 6) →
    exec i s = .next t → exec .reset t = .next u → u.engine = t.engine) ∧
  (∀ cw : CommandWord Config.W, opField cw = 7 → decode cw = .reset) ∧ encode .reset = 7

/-- R100: let `b` be the row operand of the last `NEW` or `SET_STATE`; after any commands that are neither,
`INIT_STATE` is `b`, and a `RESET` makes `STATE` equal to `b`. -/
def Obligations.ResetRestoresTheLastRestorePoint : Prop :=
  ∀ (W : Nat) (e : Engine W) (start : CommandWord W) (cws : List (CommandWord W)),
    (opField start = 1 ∨ (opField start = 6 ∧ e.configured = true)) →
    (∀ cw ∈ cws, movesRestorePoint cw = false) →
    (executeAll (start :: cws) e).1.initState = bitsField start ∧
    (∀ reset : CommandWord W, opField reset = 7 →
      (executeAll (start :: cws ++ [reset]) e).1.state = bitsField start)

/-! ### 10_state.md -/

/-- R17: `STATE` and `INIT_STATE` hold equal values immediately after `NEW`, `SET_STATE` and `RESET`, and
`STEP` never changes `INIT_STATE`. -/
def Obligations.StateAndRestorePointAreIndependent : Prop :=
  (∀ (W : Nat) (cw : CommandWord W) (e : Engine W),
    (opField cw = 1 ∨ (e.configured = true ∧ (opField cw = 6 ∨ opField cw = 7))) →
    (executeWord cw e).1.state = (executeWord cw e).1.initState) ∧
  (∀ (W : Nat) (cw : CommandWord W) (e : Engine W), opField cw = 2 →
    (executeWord cw e).1.initState = e.initState) ∧
  (∃ (cw : CommandWord 8) (e : Engine 8), opField cw = 2 ∧ e.state = e.initState ∧
    (executeWord cw e).1.state ≠ (executeWord cw e).1.initState)

/-- R18: `CONFIGURED` is 0 after hard reset, is set by `NEW` and by nothing else, and no operation clears
it; while it is 0 every operation except `NEW` faults. -/
def Obligations.OnlyNewConfigures : Prop :=
  State.reset.engine.configured = false ∧
  (∀ (W : Nat) (e : Engine W), e.hardReset.configured = false) ∧
  (∀ (i : Instr) (s t : State), exec i s = .next t →
    t.engine.configured = (s.engine.configured || decide (i.opcode = 1))) ∧
  (∀ (i : Instr) (s : State), s.engine.configured = false → i.opcode ≠ 1 → i.opcode ≠ 0 →
    ∃ t : State, exec i s = .next t ∧
      t.responses = s.responses ++ [⟨.fault .notConfigured, none⟩])

/-- R23: the access table. What each operation may write: the operations without a `W` in a register's
column leave it alone, and a command that faults writes nothing but `FAULT`, and `FAULT` only if it was 0.
What each may read: the operations without an `R` in a register's column respond alike, and leave every
other register alike, whatever that register holds. Hard reset takes `CONFIGURED` and `FAULT` to 0. -/
def Obligations.AccessTable : Prop :=
  (∀ (W : Nat) (cw : CommandWord W) (e : Engine W),
    ((executeWord cw e).1.state ≠ e.state →
      opField cw = 1 ∨ opField cw = 2 ∨ opField cw = 6 ∨ opField cw = 7) ∧
    ((executeWord cw e).1.initState ≠ e.initState → opField cw = 1 ∨ opField cw = 6) ∧
    ((executeWord cw e).1.rule ≠ e.rule → opField cw = 1 ∨ opField cw = 4) ∧
    ((executeWord cw e).1.mode ≠ e.mode → opField cw = 1 ∨ opField cw = 5) ∧
    ((executeWord cw e).1.configured ≠ e.configured → opField cw = 1) ∧
    ((executeWord cw e).1.fault ≠ e.fault → e.fault = 0 ∧ (executeWord cw e).2.status ≠ .ok) ∧
    (opField cw = 1 → (executeWord cw e).1.configured = true) ∧
    ((executeWord cw e).2.status ≠ .ok →
      (executeWord cw e).1 =
        { e with fault := if e.fault = 0 then (executeWord cw e).2.status.code else e.fault })) ∧
  (∀ (W : Nat) (cw : CommandWord W) (e : Engine W) (row : Row W),
    (opField cw ≠ 2 → opField cw ≠ 3 →
      (executeWord cw { e with state := row }).2 = (executeWord cw e).2 ∧
      { (executeWord cw { e with state := row }).1 with state := e.state } =
        { (executeWord cw e).1 with state := e.state }) ∧
    (opField cw ≠ 7 →
      (executeWord cw { e with initState := row }).2 = (executeWord cw e).2 ∧
      { (executeWord cw { e with initState := row }).1 with initState := e.initState } =
        { (executeWord cw e).1 with initState := e.initState }) ∧
    (∀ rule : RuleTable, opField cw ≠ 2 →
      (executeWord cw { e with rule := rule }).2 = (executeWord cw e).2 ∧
      { (executeWord cw { e with rule := rule }).1 with rule := e.rule } =
        { (executeWord cw e).1 with rule := e.rule }) ∧
    (∀ mode : Mode, opField cw ≠ 2 →
      (executeWord cw { e with mode := mode }).2 = (executeWord cw e).2 ∧
      { (executeWord cw { e with mode := mode }).1 with mode := e.mode } =
        { (executeWord cw e).1 with mode := e.mode }) ∧
    (∀ b : Bool, opField cw = 0 ∨ opField cw = 1 →
      (executeWord cw { e with configured := b }).2 = (executeWord cw e).2 ∧
      { (executeWord cw { e with configured := b }).1 with configured := e.configured } =
        { (executeWord cw e).1 with configured := e.configured }) ∧
    (∀ f : BitVec 2,
      (executeWord cw { e with fault := f }).2 = (executeWord cw e).2 ∧
      { (executeWord cw { e with fault := f }).1 with fault := e.fault } =
        { (executeWord cw e).1 with fault := e.fault })) ∧
  (∀ (W : Nat) (e : Engine W), e.hardReset.configured = false ∧ e.hardReset.fault = 0)

/-- R26: engines share nothing: a step of one engine changes no other, and its result is its own step,
whatever the others hold. -/
def Obligations.EnginesShareNothing : Prop :=
  ∀ (system : List State) (n : Nat),
    (stepEngine n system).length = system.length ∧
    (∀ m, m ≠ n → (stepEngine n system)[m]? = system[m]?) ∧
    (∀ s t : State, system[n]? = some s → step s = .next t → (stepEngine n system)[n]? = some t)

/-! ### 60_exceptions.md -/

/-- R54, R111: a word with `op = 0` raises `ReservedOp`, whatever its other fields hold and whether the
engine is configured or not: `FAULT` records 1 if it was 0, the response has status 1 and no data, and
nothing else changes. -/
def Obligations.ReservedOpcodeRaisesReservedOp : Prop :=
  (∀ cw : CommandWord Config.W, opField cw = 0 ↔ decode cw = .reserved) ∧
  (∀ s : State, exec .reserved s =
    .next { s with
      engine := { s.engine with fault := if s.engine.fault = 0 then 1 else s.engine.fault },
      responses := s.responses ++ [⟨.fault .reservedOp, none⟩] }) ∧
  (Status.fault .reservedOp).code = 1

/-- 60 section 1: the execution of a command has exactly two kinds of outcome: it completes with status `OK`, or no
register changes except possibly `FAULT` and the response has the fault's status and no data; and on a
configured engine every operation completes. No command stops the machine. -/
def Obligations.EveryCommandCompletesOrFaults : Prop :=
  ∀ (i : Instr) (s : State), ∃ (e : Engine Config.W) (r : Response Config.W),
    exec i s = .next { s with engine := e, responses := s.responses ++ [r] } ∧
    (r.status = .ok ∨
      ∃ cause : FaultCause, r = ⟨.fault cause, none⟩ ∧ e = { s.engine with fault := e.fault }) ∧
    (s.engine.configured = true → i.opcode ≠ 0 → r.status = .ok)

/-- R112: on an unconfigured engine each of the six operations other than `NEW` raises `NotConfigured`:
`FAULT` records 2 if it was 0, the response has status 2 and no data, and nothing else changes; `NEW`
never raises it. The four unspecified registers are not read: what they hold changes neither the response
nor `FAULT`. -/
def Obligations.UnconfiguredOperationsRaiseNotConfigured : Prop :=
  (∀ (W : Nat) (cw : CommandWord W) (e : Engine W), e.configured = false → opField cw ≠ 0 →
    opField cw ≠ 1 →
    executeWord cw e =
      ({ e with fault := if e.fault = 0 then 2 else e.fault }, ⟨.fault .notConfigured, none⟩)) ∧
  (∀ (W : Nat) (cw : CommandWord W) (e : Engine W), opField cw = 1 →
    (executeWord cw e).2 = ⟨.ok, none⟩) ∧
  (Status.fault .notConfigured).code = 2 ∧
  (∀ (W : Nat) (cw : CommandWord W) (e e' : Engine W), e.configured = false →
    e'.configured = false → e.fault = e'.fault →
    (executeWord cw e).2 = (executeWord cw e').2 ∧
    (executeWord cw e).1.fault = (executeWord cw e').1.fault)

/-- 70 section 1: the unspecified contents of `STATE`, `INIT_STATE`, `RULE` and `MODE` before the first
`NEW` never reach the host: two engines that are unconfigured and hold the same `FAULT` answer every
command sequence alike. -/
def Obligations.UnspecifiedContentsNeverReachTheHost : Prop :=
  ∀ (W : Nat) (cws : List (CommandWord W)) (e e' : Engine W),
    e.configured = false → e'.configured = false → e.fault = e'.fault →
    (executeAll cws e).2 = (executeAll cws e').2 ∧
    (executeAll cws e).1.fault = (executeAll cws e').1.fault ∧
    (executeAll cws e).1.configured = (executeAll cws e').1.configured ∧
    ((executeAll cws e).1.configured = true →
      (executeAll cws e).1.state = (executeAll cws e').1.state ∧
      (executeAll cws e).1.initState = (executeAll cws e').1.initState ∧
      (executeAll cws e).1.rule = (executeAll cws e').1.rule ∧
      (executeAll cws e).1.mode = (executeAll cws e').1.mode)

/-- R113, R114: a faulting command writes its code to `FAULT` if `FAULT` was 0 and no other register; the
status code is the `FAULT` code; and `FAULT` holds the code of the first fault of a run, which no command
overwrites or clears and hard reset clears. -/
def Obligations.FaultHoldsTheFirstFault : Prop :=
  (∀ (W : Nat) (cause : FaultCause) (e : Engine W),
    raise cause e =
      ({ e with fault := if e.fault = 0 then cause.code else e.fault }, ⟨.fault cause, none⟩) ∧
    (Status.fault cause).code = cause.code) ∧
  (∀ (W : Nat) (cws : List (CommandWord W)) (e : Engine W),
    (e.fault ≠ 0 → (executeAll cws e).1.fault = e.fault) ∧
    (e.fault = 0 → (executeAll cws e).1.fault = firstFaultCode (executeAll cws e).2)) ∧
  (∀ (W : Nat) (e : Engine W), e.hardReset.fault = 0)

/-- R115: the decoder's check comes first, then the check of `CONFIGURED`, and otherwise the operation's
rule is carried out, without a fault. -/
def Obligations.FaultPriority : Prop :=
  ∀ (W : Nat) (cw : CommandWord W) (e : Engine W),
    (opField cw = 0 → executeWord cw e = raise .reservedOp e) ∧
    (opField cw ≠ 0 → opField cw ≠ 1 → e.configured = false →
      executeWord cw e = raise .notConfigured e) ∧
    (opField cw = 1 → executeWord cw e = newOp (ruleField cw) (modeField cw) (bitsField cw) e) ∧
    (e.configured = true →
      (opField cw = 2 →
        executeWord cw e = ({ e with state := nextRow e.rule e.mode e.state }, ⟨.ok, none⟩)) ∧
      (opField cw = 3 → executeWord cw e = (e, ⟨.ok, some e.state⟩)) ∧
      (opField cw = 4 → executeWord cw e = ({ e with rule := ruleField cw }, ⟨.ok, none⟩)) ∧
      (opField cw = 5 → executeWord cw e = ({ e with mode := modeField cw }, ⟨.ok, none⟩)) ∧
      (opField cw = 6 →
        executeWord cw e =
          ({ e with state := bitsField cw, initState := bitsField cw }, ⟨.ok, none⟩)) ∧
      (opField cw = 7 → executeWord cw e = ({ e with state := e.initState }, ⟨.ok, none⟩)))

/-- After a fault the engine accepts the next command normally and executes it by its own rule
(60_exceptions.md section 5): what `FAULT` holds influences no response and no other register. -/
def Obligations.FaultRegisterInfluencesNoCommand : Prop :=
  ∀ (W : Nat) (cws : List (CommandWord W)) (e : Engine W) (f : BitVec 2),
    (executeAll cws { e with fault := f }).2 = (executeAll cws e).2 ∧
    { (executeAll cws { e with fault := f }).1 with fault := 0 } =
      { (executeAll cws e).1 with fault := 0 }

/-! ### 70_reset_and_hazards.md, and the machine's step -/

/-- A step runs the decoded command: the input is taken, and the step is `exec` of the decoded word; at
every width the execution of a word is what `exec` does to the registers and the response. `withFetchWord`
makes a word the very next command. -/
def Obligations.StepRunsTheDecodedCommand : Prop :=
  (∀ (s : State) (cw : CommandWord Config.W) (rest : List (HostInput Config.W)),
    s.inputs = .command cw :: rest → step s = exec (decode cw) { s with inputs := rest }) ∧
  (∀ (s : State) (cw : CommandWord Config.W),
    exec (decode cw) s =
      .next { s with engine := (executeWord cw s.engine).1,
                     responses := s.responses ++ [(executeWord cw s.engine).2] }) ∧
  (∀ (s : State) (nbits w : Nat), w < 2 ^ nbits → nbits ≤ Config.W + 12 →
    ∃ i : Instr, decodeTableWord nbits w = some i ∧
      decode (BitVec.ofNat (Config.W + 12) w) = i ∧ step (s.withFetchWord nbits w) = exec i s)

/-- With nothing from the host the engine holds its registers (00_scope.md section 5, 70 section 1; the
machine's idle step is the model's own, notes/assumptions/3.md). -/
def Obligations.IdleStepHolds : Prop :=
  ∀ s : State, s.inputs = [] → step s = .next s

/-- 70_reset_and_hazards.md section 1 (R131): after hard reset `CONFIGURED` and `FAULT` are 0. Of the other
four registers nothing is said. That hard reset is an input of its own, and that one between commands keeps
the inputs still to come and the responses given, is the model's own (notes/assumptions/5.md). -/
def Obligations.HardResetUnconfigures : Prop :=
  (∀ (s : State) (rest : List (HostInput Config.W)), s.inputs = .hardReset :: rest →
    ∃ e : Engine Config.W, step s = .next { s with engine := e, inputs := rest } ∧
      e.configured = false ∧ e.fault = 0) ∧
  State.reset.engine.configured = false ∧ State.reset.engine.fault = 0

/-- 70_reset_and_hazards.md section 1 (R132): a hard reset while a command executes abandons the command: the machine is as after a hard reset
without it, no response is given, and the commands not yet accepted are kept. At the ports the command in
flight is abandoned without a response. The input of a command cut by hard reset, and the responses it
keeps, are the model's own (notes/assumptions/5.md), and so is the clocked port with its priority of hard
reset (notes/assumptions/9.md). -/
def Obligations.HardResetAbandonsTheCommand : Prop :=
  (∀ (s : State) (cw : CommandWord Config.W) (rest : List (HostInput Config.W)),
    s.inputs = .commandCutByHardReset cw :: rest →
    step s = step { s with inputs := .hardReset :: rest } ∧
    ∃ t : State, step s = .next t ∧ t.inputs = rest ∧ t.responses = s.responses ∧
      t.engine.configured = false ∧ t.engine.fault = 0) ∧
  (∀ (W : Nat) (lat : CommandWord W → Nat) (pins : InputPorts W) (p : PortState W)
    (cw : CommandWord W) (n : Nat), p.inFlight = some (cw, n) → pins.hreset = true →
    p.clock lat pins = { engine := p.engine.hardReset, inFlight := none } ∧
    p.response pins = none)

/-- R134: until `NEW` has completed, each of the other six operations faults with `NotConfigured` and does
nothing: no register but `FAULT` changes. One `NEW` is enough: after it every operation completes. -/
def Obligations.NothingRunsBeforeNew : Prop :=
  (∀ (W : Nat) (cws : List (CommandWord W)) (e : Engine W), e.configured = false →
    (∀ cw ∈ cws, opField cw ≠ 0 ∧ opField cw ≠ 1) →
    (∀ r ∈ (executeAll cws e).2, r = ⟨.fault .notConfigured, none⟩) ∧
    (executeAll cws e).1 = { e with fault := (executeAll cws e).1.fault }) ∧
  (∀ (W : Nat) (cws : List (CommandWord W)) (e : Engine W) (start : CommandWord W),
    opField start = 1 → (∀ cw ∈ cws, opField cw ≠ 0) →
    ∀ r ∈ (executeAll (start :: cws) e).2, r.status = .ok)

/-- From the acceptance of a command until its response `cmd_ready` is low, and a command presented
meanwhile is not accepted (70 section 3). The clocked port is the model's own, and so is that `cmd_ready` is
still low in the clock that presents the response (notes/assumptions/9.md). -/
def Obligations.OneCommandInFlight : Prop :=
  ∀ (W : Nat) (lat : CommandWord W → Nat) (p : PortState W) (pins pins' : InputPorts W)
    (cw : CommandWord W) (n : Nat), p.inFlight = some (cw, n) →
    pins.hreset = false → pins'.hreset = false →
    (p.outputs pins).cmdReady = false ∧ p.clock lat pins = p.clock lat pins' ∧
    ((p.clock lat pins).inFlight = none ↔ (p.response pins).isSome = true)

/-- Every accepted command receives its response after a finite time, whatever the register contents
and whatever the latency, and `cmd_ready` then goes high again (70 section 4): a command accepted by an idle engine is
answered after `LAT + 1` further clocks without hard reset, whatever the host presents meanwhile, and what
it did does not depend on the latency. The clocked port is the model's own (notes/assumptions/9.md). -/
def Obligations.AcceptedCommandIsAnswered : Prop :=
  ∀ (W : Nat) (lat : CommandWord W → Nat) (p : PortState W) (cw : CommandWord W)
    (accept : InputPorts W) (busy : List (InputPorts W)),
    p.inFlight = none → accept.hreset = false → accept.cmdValid = true → accept.cmd = cw →
    busy.length = lat cw + 1 → (∀ pins ∈ busy, pins.hreset = false) →
    PortState.run lat (accept :: busy) p =
        ({ engine := (executeWord cw p.engine).1, inFlight := none },
          [(executeWord cw p.engine).2]) ∧
      (PortState.run lat (accept :: busy) p).1.cmdReady = true

/-- Every step of the machine gives a next state: the engine cannot deadlock or stop (70 section 4,
60 section 1). -/
def Obligations.EveryStepGivesANextState : Prop :=
  ∀ s : State, ∃ t : State, step s = .next t

/-- The invariant of the machine holds right after reset. -/
def Obligations.InvariantHoldsAtReset : Prop := State.reset.Inv

/-- The invariant of the machine is kept by every step, from every state that meets it: `FAULT` is never 3
(R19), a fault it holds was answered to the host, a configured engine has answered a command `OK`, and
only `OK` responses carry data. -/
def Obligations.EveryStepKeepsTheInvariant : Prop :=
  ∀ s t : State, s.Inv → step s = .next t → t.Inv
end

