-- ==== Sys2Proof/Laws/Decode.lean ====
section
/-! SUPPORT. The fields of an assembled command word, and the words two by two: what decoding and encoding
proofs cite instead of unfolding the layout of spec 30_encoding.md R50. -/

namespace Sys2Proof

variable {W : Nat}

@[simp] theorem Mode.ofBit_bit (mode : Mode) : Mode.ofBit mode.bit = mode := by cases mode <;> rfl

@[simp] theorem Mode.bit_ofBit (b : Bool) : (Mode.ofBit b).bit = b := by cases b <;> rfl

/-- The word as a number: `bits*4096 + rule*16 + mode*8 + op` (R50). -/
theorem toNat_assembleWord (bits : Row W) (rule : RuleTable) (mode : Mode) (op : BitVec 3) :
    (assembleWord bits rule mode op).toNat =
      bits.toNat * 4096 + rule.toNat * 16 + mode.bit.toNat * 8 + op.toNat := by
  have h1 := rule.isLt
  have h2 := op.isLt
  have h3 : mode.bit.toNat < 2 := Bool.toNat_lt _
  simp only [assembleWord, BitVec.toNat_append, BitVec.toNat_ofBool]
  rw [← Nat.shiftLeft_add_eq_or_of_lt h1, ← Nat.shiftLeft_add_eq_or_of_lt (b := mode.bit.toNat) (by simpa using h3),
    ← Nat.shiftLeft_add_eq_or_of_lt h2]
  simp only [Nat.shiftLeft_eq]
  omega

@[simp] theorem opField_assembleWord (bits : Row W) (rule : RuleTable) (mode : Mode) (op : BitVec 3) :
    opField (assembleWord bits rule mode op) = op := by
  apply BitVec.eq_of_toNat_eq
  have := op.isLt
  simp only [opField, BitVec.extractLsb'_toNat, toNat_assembleWord]
  omega

@[simp] theorem modeField_assembleWord (bits : Row W) (rule : RuleTable) (mode : Mode) (op : BitVec 3) :
    modeField (assembleWord bits rule mode op) = mode := by
  have h : (assembleWord bits rule mode op).getLsbD 3 = mode.bit := by
    have := op.isLt
    have hb : mode.bit.toNat < 2 := Bool.toNat_lt _
    rw [← BitVec.testBit_toNat, toNat_assembleWord, Nat.testBit_eq_decide_div_mod_eq]
    cases mode.bit <;> simp <;> omega
  rw [modeField, h, Mode.ofBit_bit]

@[simp] theorem ruleField_assembleWord (bits : Row W) (rule : RuleTable) (mode : Mode) (op : BitVec 3) :
    ruleField (assembleWord bits rule mode op) = rule := by
  apply BitVec.eq_of_toNat_eq
  have := op.isLt
  have := rule.isLt
  have hb : mode.bit.toNat < 2 := Bool.toNat_lt _
  simp only [ruleField, BitVec.extractLsb'_toNat, toNat_assembleWord, Nat.shiftRight_eq_div_pow]
  omega

@[simp] theorem bitsField_assembleWord (bits : Row W) (rule : RuleTable) (mode : Mode) (op : BitVec 3) :
    bitsField (assembleWord bits rule mode op) = bits := by
  apply BitVec.eq_of_toNat_eq
  have := op.isLt
  have := rule.isLt
  have := bits.isLt
  have hb : mode.bit.toNat < 2 := Bool.toNat_lt _
  simp only [bitsField, BitVec.extractLsb'_toNat, toNat_assembleWord, Nat.shiftRight_eq_div_pow]
  rw [show (bits.toNat * 4096 + rule.toNat * 16 + mode.bit.toNat * 8 + op.toNat) / 2 ^ 12 = bits.toNat by
    omega]
  exact Nat.mod_eq_of_lt bits.isLt

/-- Every command word is the assembly of its fields (R50). -/
theorem assembleWord_fields (cw : CommandWord W) :
    assembleWord (bitsField cw) (ruleField cw) (modeField cw) (opField cw) = cw := by
  apply BitVec.eq_of_toNat_eq
  have h := cw.isLt
  have hm : (modeField cw).bit.toNat = cw.toNat / 8 % 2 := by
    rw [modeField, Mode.bit_ofBit, ← BitVec.testBit_toNat, Nat.testBit_eq_decide_div_mod_eq]
    rcases Nat.mod_two_eq_zero_or_one (cw.toNat / 8) with h | h <;> simp [h]
  rw [toNat_assembleWord, hm]
  simp only [bitsField, ruleField, opField, BitVec.extractLsb'_toNat, Nat.shiftRight_eq_div_pow]
  rw [Nat.mod_eq_of_lt (a := cw.toNat / 2 ^ 12) (b := 2 ^ W)]
  · omega
  · rw [Nat.div_lt_iff_lt_mul (by decide), ← Nat.pow_add]
    exact h

end Sys2Proof
end

