-- ==== Sys2Proof/Laws/State.lean ====
section
/-! SUPPORT. Every field of the state after every update, so that no proof unfolds a record update. -/

namespace Sys2Proof.Machine

variable {W : Nat}

/-! ### The engine's registers -/

@[simp] theorem Engine.writeState_state (e : Engine W) (row : Row W) :
    (e.writeState row).state = row := rfl
@[simp] theorem Engine.writeState_initState (e : Engine W) (row : Row W) :
    (e.writeState row).initState = e.initState := rfl
@[simp] theorem Engine.writeState_rule (e : Engine W) (row : Row W) :
    (e.writeState row).rule = e.rule := rfl
@[simp] theorem Engine.writeState_mode (e : Engine W) (row : Row W) :
    (e.writeState row).mode = e.mode := rfl
@[simp] theorem Engine.writeState_configured (e : Engine W) (row : Row W) :
    (e.writeState row).configured = e.configured := rfl
@[simp] theorem Engine.writeState_fault (e : Engine W) (row : Row W) :
    (e.writeState row).fault = e.fault := rfl
@[simp] theorem Engine.writeState_resetCount (e : Engine W) (row : Row W) :
    (e.writeState row).resetCount = e.resetCount := rfl

@[simp] theorem Engine.writeInitState_state (e : Engine W) (row : Row W) :
    (e.writeInitState row).state = e.state := rfl
@[simp] theorem Engine.writeInitState_initState (e : Engine W) (row : Row W) :
    (e.writeInitState row).initState = row := rfl
@[simp] theorem Engine.writeInitState_rule (e : Engine W) (row : Row W) :
    (e.writeInitState row).rule = e.rule := rfl
@[simp] theorem Engine.writeInitState_mode (e : Engine W) (row : Row W) :
    (e.writeInitState row).mode = e.mode := rfl
@[simp] theorem Engine.writeInitState_configured (e : Engine W) (row : Row W) :
    (e.writeInitState row).configured = e.configured := rfl
@[simp] theorem Engine.writeInitState_fault (e : Engine W) (row : Row W) :
    (e.writeInitState row).fault = e.fault := rfl
@[simp] theorem Engine.writeInitState_resetCount (e : Engine W) (row : Row W) :
    (e.writeInitState row).resetCount = e.resetCount := rfl

@[simp] theorem Engine.writeRule_state (e : Engine W) (rule : RuleTable) :
    (e.writeRule rule).state = e.state := rfl
@[simp] theorem Engine.writeRule_initState (e : Engine W) (rule : RuleTable) :
    (e.writeRule rule).initState = e.initState := rfl
@[simp] theorem Engine.writeRule_rule (e : Engine W) (rule : RuleTable) :
    (e.writeRule rule).rule = rule := rfl
@[simp] theorem Engine.writeRule_mode (e : Engine W) (rule : RuleTable) :
    (e.writeRule rule).mode = e.mode := rfl
@[simp] theorem Engine.writeRule_configured (e : Engine W) (rule : RuleTable) :
    (e.writeRule rule).configured = e.configured := rfl
@[simp] theorem Engine.writeRule_fault (e : Engine W) (rule : RuleTable) :
    (e.writeRule rule).fault = e.fault := rfl
@[simp] theorem Engine.writeRule_resetCount (e : Engine W) (rule : RuleTable) :
    (e.writeRule rule).resetCount = e.resetCount := rfl

@[simp] theorem Engine.writeMode_state (e : Engine W) (mode : Mode) :
    (e.writeMode mode).state = e.state := rfl
@[simp] theorem Engine.writeMode_initState (e : Engine W) (mode : Mode) :
    (e.writeMode mode).initState = e.initState := rfl
@[simp] theorem Engine.writeMode_rule (e : Engine W) (mode : Mode) :
    (e.writeMode mode).rule = e.rule := rfl
@[simp] theorem Engine.writeMode_mode (e : Engine W) (mode : Mode) :
    (e.writeMode mode).mode = mode := rfl
@[simp] theorem Engine.writeMode_configured (e : Engine W) (mode : Mode) :
    (e.writeMode mode).configured = e.configured := rfl
@[simp] theorem Engine.writeMode_fault (e : Engine W) (mode : Mode) :
    (e.writeMode mode).fault = e.fault := rfl
@[simp] theorem Engine.writeMode_resetCount (e : Engine W) (mode : Mode) :
    (e.writeMode mode).resetCount = e.resetCount := rfl

@[simp] theorem Engine.markConfigured_state (e : Engine W) :
    (e.markConfigured).state = e.state := rfl
@[simp] theorem Engine.markConfigured_initState (e : Engine W) :
    (e.markConfigured).initState = e.initState := rfl
@[simp] theorem Engine.markConfigured_rule (e : Engine W) :
    (e.markConfigured).rule = e.rule := rfl
@[simp] theorem Engine.markConfigured_mode (e : Engine W) :
    (e.markConfigured).mode = e.mode := rfl
@[simp] theorem Engine.markConfigured_configured (e : Engine W) :
    (e.markConfigured).configured = true := rfl
@[simp] theorem Engine.markConfigured_fault (e : Engine W) :
    (e.markConfigured).fault = e.fault := rfl
@[simp] theorem Engine.markConfigured_resetCount (e : Engine W) :
    (e.markConfigured).resetCount = e.resetCount := rfl

@[simp] theorem Engine.recordFault_state (e : Engine W) (cause : FaultCause) :
    (e.recordFault cause).state = e.state := rfl
@[simp] theorem Engine.recordFault_initState (e : Engine W) (cause : FaultCause) :
    (e.recordFault cause).initState = e.initState := rfl
@[simp] theorem Engine.recordFault_rule (e : Engine W) (cause : FaultCause) :
    (e.recordFault cause).rule = e.rule := rfl
@[simp] theorem Engine.recordFault_mode (e : Engine W) (cause : FaultCause) :
    (e.recordFault cause).mode = e.mode := rfl
@[simp] theorem Engine.recordFault_configured (e : Engine W) (cause : FaultCause) :
    (e.recordFault cause).configured = e.configured := rfl
@[simp] theorem Engine.recordFault_fault (e : Engine W) (cause : FaultCause) :
    (e.recordFault cause).fault = firstFault e.fault cause := rfl
@[simp] theorem Engine.recordFault_resetCount (e : Engine W) (cause : FaultCause) :
    (e.recordFault cause).resetCount = e.resetCount := rfl

/-! ### Hard reset -/

@[simp] theorem Engine.unconfigured_configured (n : Nat) :
    (Engine.unconfigured W n).configured = false := rfl
@[simp] theorem Engine.unconfigured_fault (n : Nat) : (Engine.unconfigured W n).fault = 0 := rfl
@[simp] theorem Engine.unconfigured_resetCount (n : Nat) :
    (Engine.unconfigured W n).resetCount = n := rfl
@[simp] theorem Engine.hardReset_configured (e : Engine W) : e.hardReset.configured = false := rfl
@[simp] theorem Engine.hardReset_fault (e : Engine W) : e.hardReset.fault = 0 := rfl
@[simp] theorem Engine.hardReset_resetCount (e : Engine W) :
    e.hardReset.resetCount = e.resetCount + 1 := rfl

/-! ### The machine -/

@[simp] theorem State.withEngine_engine (s : State) (e : Engine Config.W) :
    (s.withEngine e).engine = e := rfl
@[simp] theorem State.withEngine_inputs (s : State) (e : Engine Config.W) :
    (s.withEngine e).inputs = s.inputs := rfl
@[simp] theorem State.withEngine_responses (s : State) (e : Engine Config.W) :
    (s.withEngine e).responses = s.responses := rfl

@[simp] theorem State.withInputs_engine (s : State) (inputs : List (HostInput Config.W)) :
    (s.withInputs inputs).engine = s.engine := rfl
@[simp] theorem State.withInputs_inputs (s : State) (inputs : List (HostInput Config.W)) :
    (s.withInputs inputs).inputs = inputs := rfl
@[simp] theorem State.withInputs_responses (s : State) (inputs : List (HostInput Config.W)) :
    (s.withInputs inputs).responses = s.responses := rfl

@[simp] theorem State.respond_engine (s : State) (r : Response Config.W) :
    (s.respond r).engine = s.engine := rfl
@[simp] theorem State.respond_inputs (s : State) (r : Response Config.W) :
    (s.respond r).inputs = s.inputs := rfl
@[simp] theorem State.respond_responses (s : State) (r : Response Config.W) :
    (s.respond r).responses = s.responses ++ [r] := rfl

@[simp] theorem State.hardReset_engine (s : State) :
    (s.hardReset).engine = s.engine.hardReset := rfl
@[simp] theorem State.hardReset_inputs (s : State) :
    (s.hardReset).inputs = s.inputs := rfl
@[simp] theorem State.hardReset_responses (s : State) :
    (s.hardReset).responses = s.responses := rfl

@[simp] theorem State.issue_engine (s : State) (cw : CommandWord Config.W) :
    (s.issue cw).engine = s.engine := rfl
@[simp] theorem State.issue_inputs (s : State) (cw : CommandWord Config.W) :
    (s.issue cw).inputs = .command cw :: s.inputs := rfl
@[simp] theorem State.issue_responses (s : State) (cw : CommandWord Config.W) :
    (s.issue cw).responses = s.responses := rfl

/-! ### Reset -/

@[simp] theorem State.reset_inputs : State.reset.inputs = [] := rfl
@[simp] theorem State.reset_responses : State.reset.responses = [] := rfl
@[simp] theorem State.reset_configured : State.reset.engine.configured = false := rfl
@[simp] theorem State.reset_fault : State.reset.engine.fault = 0 := rfl

end Sys2Proof.Machine
end

