-- ==== Sys2Proof/Laws/Ops.lean ====
section
/-! SUPPORT. What each shared operation can do, said once: taking a fault, the `CONFIGURED` check, and the
run of an operation on the machine. -/

namespace Sys2Proof.Machine

variable {W : Nat}

/-! ### Faults (spec 60_exceptions.md R114) -/

@[simp] theorem firstFault_zero (cause : FaultCause) : firstFault 0#2 cause = cause.code := rfl

theorem firstFault_of_ne_zero {old : BitVec 2} (h : old ≠ 0) (cause : FaultCause) :
    firstFault old cause = old := if_neg h

theorem FaultCause.code_ne_zero (cause : FaultCause) : cause.code ≠ 0 := by
  cases cause <;> decide

theorem FaultCause.code_ne_three (cause : FaultCause) : cause.code ≠ 3 := by
  cases cause <;> decide

theorem firstFault_ne_zero (old : BitVec 2) (cause : FaultCause) : firstFault old cause ≠ 0 := by
  unfold firstFault
  split
  · exact cause.code_ne_zero
  · assumption

theorem firstFault_ne_three {old : BitVec 2} (h : old ≠ 3) (cause : FaultCause) :
    firstFault old cause ≠ 3 := by
  unfold firstFault
  split
  · exact cause.code_ne_three
  · exact h

/-- Taking a fault: only `FAULT` changes, and the response carries the fault and no data. -/
theorem raise_eq (cause : FaultCause) (e : Engine W) :
    raise cause e = ({ e with fault := firstFault e.fault cause }, ⟨.fault cause, none⟩) := rfl

/-! ### The check of `CONFIGURED` (R112) -/

@[simp] theorem whenConfigured_of_configured {op : Engine W → Engine W × Response W} {e : Engine W}
    (h : e.configured = true) : whenConfigured op e = op e := by simp [whenConfigured, h]

@[simp] theorem whenConfigured_of_unconfigured {op : Engine W → Engine W × Response W} {e : Engine W}
    (h : e.configured = false) : whenConfigured op e = raise .notConfigured e := by
  simp [whenConfigured, h]

/-! ### Every operation on a configured engine -/

section Configured

variable {e : Engine W} (h : e.configured = true)
include h

theorem stepOp_configured :
    stepOp e = ({ e with state := nextRow e.rule e.mode e.state }, ⟨.ok, none⟩) := by
  simp only [stepOp, whenConfigured_of_configured h]; rfl

theorem readStateOp_configured : readStateOp e = (e, ⟨.ok, some e.state⟩) := by
  simp only [readStateOp, whenConfigured_of_configured h]; rfl

theorem setRuleOp_configured (rule : RuleTable) :
    setRuleOp rule e = ({ e with rule := rule }, ⟨.ok, none⟩) := by
  simp only [setRuleOp, whenConfigured_of_configured h]; rfl

theorem setBoundaryModeOp_configured (mode : Mode) :
    setBoundaryModeOp mode e = ({ e with mode := mode }, ⟨.ok, none⟩) := by
  simp only [setBoundaryModeOp, whenConfigured_of_configured h]; rfl

theorem setStateOp_configured (bits : Row W) :
    setStateOp bits e = ({ e with state := bits, initState := bits }, ⟨.ok, none⟩) := by
  simp only [setStateOp, whenConfigured_of_configured h]; rfl

theorem resetOp_configured : resetOp e = ({ e with state := e.initState }, ⟨.ok, none⟩) := by
  simp only [resetOp, whenConfigured_of_configured h]; rfl

end Configured

/-! ### Every operation on an unconfigured engine (R112) -/

section Unconfigured

variable {e : Engine W} (h : e.configured = false)
include h

theorem stepOp_unconfigured : stepOp e = raise .notConfigured e := whenConfigured_of_unconfigured h

theorem readStateOp_unconfigured : readStateOp e = raise .notConfigured e :=
  whenConfigured_of_unconfigured h

theorem setRuleOp_unconfigured (rule : RuleTable) : setRuleOp rule e = raise .notConfigured e :=
  whenConfigured_of_unconfigured h

theorem setBoundaryModeOp_unconfigured (mode : Mode) :
    setBoundaryModeOp mode e = raise .notConfigured e := whenConfigured_of_unconfigured h

theorem setStateOp_unconfigured (bits : Row W) : setStateOp bits e = raise .notConfigured e :=
  whenConfigured_of_unconfigured h

theorem resetOp_unconfigured : resetOp e = raise .notConfigured e := whenConfigured_of_unconfigured h

end Unconfigured

/-! ### `NEW` and the reserved opcode, on any engine -/

theorem newOp_eq (rule : RuleTable) (mode : Mode) (bits : Row W) (e : Engine W) :
    newOp rule mode bits e =
      ({ e with state := bits, initState := bits, rule := rule, mode := mode, configured := true },
       ⟨.ok, none⟩) := rfl

theorem reservedOp_eq (e : Engine W) : reservedOp e = raise .reservedOp e := rfl

/-! ### The machine -/

/-- The run of one operation: it always gives a next state, the inputs are untouched and exactly one
response is added. -/
theorem perform_eq (s : State) (op : Engine Config.W → Engine Config.W × Response Config.W) :
    s.perform op =
      .next { s with engine := (op s.engine).1, responses := s.responses ++ [(op s.engine).2] } := rfl

/-- The operation of an instruction at the canonical width. -/
def instrOp : Instr → Engine Config.W → Engine Config.W × Response Config.W
  | .reserved => reservedOp
  | .new rule mode bits => newOp rule mode bits
  | .step => stepOp
  | .readState => readStateOp
  | .setRule rule => setRuleOp rule
  | .setBoundaryMode mode => setBoundaryModeOp mode
  | .setState bits => setStateOp bits
  | .reset => resetOp

/-- Every instruction's meaning is the run of its operation. -/
theorem exec_eq_perform (i : Instr) (s : State) : exec i s = s.perform (instrOp i) := by
  cases i <;> rfl

/-- Everything one instruction can do to the registers and the response: take a fault, or, on a configured
engine and for `NEW` on any, the effect of its rule. Proofs about `exec` cite this. -/
theorem instrOp_cases (i : Instr) (e : Engine Config.W) :
    (i = .reserved ∧ instrOp i e = raise .reservedOp e) ∨
    (i.opcode ≠ 0 ∧ i.opcode ≠ 1 ∧ e.configured = false ∧ instrOp i e = raise .notConfigured e) ∨
    (∃ rule mode bits, i = .new rule mode bits ∧
      instrOp i e =
        ({ e with state := bits, initState := bits, rule := rule, mode := mode, configured := true },
         ⟨.ok, none⟩)) ∨
    (e.configured = true ∧
      ((i = .step ∧
          instrOp i e = ({ e with state := nextRow e.rule e.mode e.state }, ⟨.ok, none⟩)) ∨
       (i = .readState ∧ instrOp i e = (e, ⟨.ok, some e.state⟩)) ∨
       (∃ rule, i = .setRule rule ∧ instrOp i e = ({ e with rule := rule }, ⟨.ok, none⟩)) ∨
       (∃ mode, i = .setBoundaryMode mode ∧ instrOp i e = ({ e with mode := mode }, ⟨.ok, none⟩)) ∨
       (∃ bits, i = .setState bits ∧
          instrOp i e = ({ e with state := bits, initState := bits }, ⟨.ok, none⟩)) ∨
       (i = .reset ∧ instrOp i e = ({ e with state := e.initState }, ⟨.ok, none⟩)))) := by
  rcases Bool.eq_false_or_eq_true e.configured with h | h
  · cases i with
    | reserved => exact .inl ⟨rfl, rfl⟩
    | new rule mode bits => exact .inr (.inr (.inl ⟨rule, mode, bits, rfl, rfl⟩))
    | step => exact .inr (.inr (.inr ⟨h, .inl ⟨rfl, stepOp_configured h⟩⟩))
    | readState => exact .inr (.inr (.inr ⟨h, .inr (.inl ⟨rfl, readStateOp_configured h⟩)⟩))
    | setRule rule =>
      exact .inr (.inr (.inr ⟨h, .inr (.inr (.inl ⟨rule, rfl, setRuleOp_configured h rule⟩))⟩))
    | setBoundaryMode mode =>
      exact .inr (.inr (.inr ⟨h, .inr (.inr (.inr (.inl
        ⟨mode, rfl, setBoundaryModeOp_configured h mode⟩)))⟩))
    | setState bits =>
      exact .inr (.inr (.inr ⟨h, .inr (.inr (.inr (.inr (.inl
        ⟨bits, rfl, setStateOp_configured h bits⟩))))⟩))
    | reset =>
      exact .inr (.inr (.inr ⟨h, .inr (.inr (.inr (.inr (.inr ⟨rfl, resetOp_configured h⟩))))⟩))
  · cases i with
    | reserved => exact .inl ⟨rfl, rfl⟩
    | new rule mode bits => exact .inr (.inr (.inl ⟨rule, mode, bits, rfl, rfl⟩))
    | step => exact .inr (.inl ⟨by decide, by decide, h, stepOp_unconfigured h⟩)
    | readState => exact .inr (.inl ⟨by decide, by decide, h, readStateOp_unconfigured h⟩)
    | setRule rule =>
      exact .inr (.inl ⟨by simp [Instr.opcode], by simp [Instr.opcode], h,
        setRuleOp_unconfigured h rule⟩)
    | setBoundaryMode mode =>
      exact .inr (.inl ⟨by simp [Instr.opcode], by simp [Instr.opcode], h,
        setBoundaryModeOp_unconfigured h mode⟩)
    | setState bits =>
      exact .inr (.inl ⟨by simp [Instr.opcode], by simp [Instr.opcode], h,
        setStateOp_unconfigured h bits⟩)
    | reset => exact .inr (.inl ⟨by decide, by decide, h, resetOp_unconfigured h⟩)

/-- The decoded word's operation is the word's execution. -/
theorem instrOp_decode (cw : CommandWord Config.W) : instrOp (decode cw) = executeWord cw := by
  have key : ∀ x : BitVec 3, x = 0 ∨ x = 1 ∨ x = 2 ∨ x = 3 ∨ x = 4 ∨ x = 5 ∨ x = 6 ∨ x = 7 := by
    decide
  rcases key (opField cw) with h | h | h | h | h | h | h | h <;>
    simp [decode, executeWord, h, instrOp]

/-- Everything one operation of a width-generic engine can do: complete with status `OK`, or take a fault
(R110). -/
theorem executeWord_cases (cw : CommandWord W) (e : Engine W) :
    (opField cw = 0 ∧ executeWord cw e = raise .reservedOp e) ∨
    (opField cw ≠ 0 ∧ opField cw ≠ 1 ∧ e.configured = false ∧
      executeWord cw e = raise .notConfigured e) ∨
    (opField cw = 1 ∧
      executeWord cw e = newOp (ruleField cw) (modeField cw) (bitsField cw) e) ∨
    (e.configured = true ∧
      ((opField cw = 2 ∧
          executeWord cw e = ({ e with state := nextRow e.rule e.mode e.state }, ⟨.ok, none⟩)) ∨
       (opField cw = 3 ∧ executeWord cw e = (e, ⟨.ok, some e.state⟩)) ∨
       (opField cw = 4 ∧ executeWord cw e = ({ e with rule := ruleField cw }, ⟨.ok, none⟩)) ∨
       (opField cw = 5 ∧ executeWord cw e = ({ e with mode := modeField cw }, ⟨.ok, none⟩)) ∨
       (opField cw = 6 ∧
          executeWord cw e =
            ({ e with state := bitsField cw, initState := bitsField cw }, ⟨.ok, none⟩)) ∨
       (opField cw = 7 ∧ executeWord cw e = ({ e with state := e.initState }, ⟨.ok, none⟩)))) := by
  have key : ∀ x : BitVec 3, x = 0 ∨ x = 1 ∨ x = 2 ∨ x = 3 ∨ x = 4 ∨ x = 5 ∨ x = 6 ∨ x = 7 := by
    decide
  rcases key (opField cw) with h | h | h | h | h | h | h | h <;>
    cases hc : e.configured <;>
    simp [executeWord, h, reservedOp, stepOp, readStateOp, setRuleOp, setBoundaryModeOp, setStateOp,
      resetOp, hc, respondOk, respondData, Engine.writeState, Engine.writeInitState, Engine.writeRule,
      Engine.writeMode]

end Sys2Proof.Machine
end

