-- ==== Sys2Proof/Laws/PerInstr.lean ====
section
/-! SUPPORT. Statements made of every instruction as syntax, one lemma per constructor.
`EncodeOpcode`: the encoder's word carries the instruction's opcode (spec 30_encoding.md R52, R60). -/

namespace Sys2Proof.Laws.EncodeOpcode

def Statement (i : Instr) : Prop := opField (encode i) = i.opcode

theorem reserved : Statement .reserved := opField_assembleWord _ _ _ _
theorem new (rule : RuleTable) (mode : Mode) (bits : Row Config.W) : Statement (.new rule mode bits) :=
  opField_assembleWord _ _ _ _
theorem step : Statement .step := opField_assembleWord _ _ _ _
theorem readState : Statement .readState := opField_assembleWord _ _ _ _
theorem setRule (rule : RuleTable) : Statement (.setRule rule) := opField_assembleWord _ _ _ _
theorem setBoundaryMode (mode : Mode) : Statement (.setBoundaryMode mode) :=
  opField_assembleWord _ _ _ _
theorem setState (bits : Row Config.W) : Statement (.setState bits) := opField_assembleWord _ _ _ _
theorem reset : Statement .reset := opField_assembleWord _ _ _ _

end Sys2Proof.Laws.EncodeOpcode
end

