-- ==== Sys2Proof/Laws/Row.lean ====
section
/-! SUPPORT. Rows as cells: `cell`, `pack`, `unpack` and the next generation, cell by cell. -/

namespace Sys2Proof.Machine

variable {W : Nat}

/-! ### Cells and bits (spec 00_scope.md R7) -/

theorem cell_of_lt (X : Row W) {i : Nat} (h : i < W) : cell X i = X.getLsbD (W - 1 - i) := by
  simp [cell, h]

theorem getLsbD_eq_cell (X : Row W) {j : Nat} (h : j < W) : X.getLsbD j = cell X (W - 1 - j) := by
  rw [cell_of_lt X (by omega)]
  congr 1
  omega

/-- Two rows with the same cells are the same row. -/
theorem row_ext {X Y : Row W} (h : ∀ i < W, cell X i = cell Y i) : X = Y := by
  apply BitVec.eq_of_getLsbD_eq
  intro j hj
  rw [getLsbD_eq_cell X hj, getLsbD_eq_cell Y hj]
  exact h _ (by omega)

/-! ### Packing (20_memory.md R31) -/

theorem packNat_lt (cells : List Bool) : packNat cells < 2 ^ cells.length := by
  induction cells with
  | nil => simp [packNat]
  | cons b rest ih =>
    have : b.toNat ≤ 1 := Bool.toNat_le b
    have := Nat.mul_le_mul_left (2 ^ rest.length) this
    simp only [packNat, List.length_cons, Nat.pow_succ]
    omega

theorem testBit_packNat (cells : List Bool) {i : Nat} (h : i < cells.length) :
    (packNat cells).testBit (cells.length - 1 - i) = cells[i] := by
  induction cells generalizing i with
  | nil => simp at h
  | cons b rest ih =>
    rw [packNat, Nat.add_comm, Nat.testBit_two_pow_mul_add _ (packNat_lt rest)]
    cases i with
    | zero => cases b <;> simp
    | succ k =>
      have hk : k < rest.length := by simpa using h
      have : rest.length - 1 - k < rest.length := by omega
      simp [show rest.length - (k + 1) = rest.length - 1 - k by omega, this, ih hk]

@[simp] theorem toNat_packCells {cells : List Bool} (h : cells.length = W) :
    (packCells W cells).toNat = packNat cells := by
  have := packNat_lt cells
  rw [h] at this
  simp [packCells, Nat.mod_eq_of_lt this]

/-- The cells of a packed row are the sequence's elements, first element first. -/
theorem cell_packCells {cells : List Bool} (h : cells.length = W) {i : Nat} (hi : i < W) :
    cell (packCells W cells) i = cells[i]'(h ▸ hi) := by
  subst h
  rw [cell_of_lt _ hi, ← BitVec.testBit_toNat, toNat_packCells rfl]
  exact testBit_packNat cells hi

@[simp] theorem length_unpack (X : Row W) : (unpack X).length = W := by simp [unpack]

theorem getElem_unpack (X : Row W) {i : Nat} (h : i < (unpack X).length) :
    (unpack X)[i] = cell X i := by simp [unpack]

/-! ### The next generation (41_step.md R79, R81) -/

/-- Every cell of the next generation is the rule's entry for its neighbourhood in the old row. -/
theorem cell_nextRow (rule : RuleTable) (mode : Mode) (X : Row W) {i : Nat} (h : i < W) :
    cell (nextRow rule mode X) i = newCell rule mode X i := by
  rw [nextRow, cell_packCells (by simp) h]
  simp

theorem neighbourhoodIndex_lt (mode : Mode) (X : Row W) (i : Nat) :
    neighbourhoodIndex mode X i < 8 := by
  have h := fun b => Bool.toNat_le b
  have := h (leftOf mode X i)
  have := h (selfOf X i)
  have := h (rightOf mode X i)
  simp only [neighbourhoodIndex]
  omega

/-- Inside the row the boundary mode does not matter (R87). -/
theorem newCell_interior (rule : RuleTable) (m m' : Mode) (X : Row W) {i : Nat} (h₁ : 1 ≤ i)
    (h₂ : i + 2 ≤ W) : newCell rule m X i = newCell rule m' X i := by
  have h0 : i ≠ 0 := by omega
  have h1 : i ≠ W - 1 := by omega
  simp [newCell, neighbourhoodIndex, leftOf, rightOf, h0, h1]

/-! ### The neighbour planes (R82) -/

theorem getLsbD_wrapBit (mode : Mode) (b : Bool) (j : Nat) :
    (wrapBit W mode b).getLsbD j = (decide (mode = .periodic) && decide (j = 0) && decide (0 < W) && b) := by
  cases mode
  · simp [wrapBit]
  · cases j with
    | zero => cases b <;> simp [wrapBit]
    | succ k => cases b <;> simp [wrapBit]

/-- The left plane, bit by bit: the bit above, and at the top the wrapped bottom bit or 0. -/
theorem getLsbD_leftPlane_bit (mode : Mode) (S : Row W) {j : Nat} (h : j < W) :
    (leftPlane mode S).getLsbD j =
      if j = W - 1 then decide (mode = .periodic) && S.getLsbD 0 else S.getLsbD (j + 1) := by
  have hW : 0 < W := by omega
  simp only [leftPlane, BitVec.getLsbD_or, BitVec.getLsbD_ushiftRight, BitVec.getLsbD_shiftLeft,
    getLsbD_wrapBit, Nat.add_comm 1 j]
  split
  · next hj =>
    rw [BitVec.getLsbD_of_ge S (j + 1) (by omega)]
    simp [hj, hW]
  · next hj => simp [show j < W - 1 by omega]

/-- The right plane, bit by bit: the bit below, and at the bottom the wrapped top bit or 0. -/
theorem getLsbD_rightPlane_bit (mode : Mode) (S : Row W) {j : Nat} (h : j < W) :
    (rightPlane mode S).getLsbD j =
      if j = 0 then decide (mode = .periodic) && S.getLsbD (W - 1) else S.getLsbD (j - 1) := by
  have hW : 0 < W := by omega
  simp only [rightPlane, BitVec.getLsbD_or, BitVec.getLsbD_shiftLeft, getLsbD_wrapBit]
  split
  · next hj => simp [hj, hW]
  · next hj => simp [hj, h, show ¬ j < 1 by omega, BitVec.getLsbD_eq_getElem (x := S) (i := j - 1) (by omega)]

theorem getLsbD_leftPlane (mode : Mode) (S : Row W) {i : Nat} (h : i < W) :
    (leftPlane mode S).getLsbD (W - 1 - i) = leftOf mode S i := by
  rw [getLsbD_leftPlane_bit mode S (by omega)]
  by_cases h0 : i = 0
  · subst h0
    cases mode <;> simp [leftOf, getLsbD_eq_cell S h]
  · rw [if_neg (by omega), getLsbD_eq_cell S (by omega)]
    simp [leftOf, h0, show W - 1 - (W - 1 - i + 1) = i - 1 by omega]

theorem getLsbD_rightPlane (mode : Mode) (S : Row W) {i : Nat} (h : i < W) :
    (rightPlane mode S).getLsbD (W - 1 - i) = rightOf mode S i := by
  rw [getLsbD_rightPlane_bit mode S (by omega)]
  by_cases h1 : i = W - 1
  · subst h1
    cases mode <;> simp [rightOf, getLsbD_eq_cell S (show W - 1 < W by omega)]
  · rw [if_neg (by omega), getLsbD_eq_cell S (by omega)]
    simp [rightOf, h1, show W - 1 - (W - 1 - i - 1) = i + 1 by omega]

end Sys2Proof.Machine
end

