-- ==== Sys2Proof/Laws/Step.lean ====
section
/-! SUPPORT. What one step of the machine can do, said once. -/

namespace Sys2Proof.Machine

/-- The host's next input is the head of the list, and taking it leaves the rest. -/
theorem nextInput_eq_some {s s' : State} {input : HostInput Config.W}
    (h : s.nextInput = some (input, s')) :
    s.inputs = input :: s'.inputs ∧ s' = s.withInputs s'.inputs := by
  unfold State.nextInput at h
  split at h
  · cases h
  · next rest hs =>
    injection h with h
    injection h with h₁ h₂
    subst h₁ h₂
    exact ⟨hs, rfl⟩

/-- Every step holds the machine, executes the decoded command, or is a hard reset. -/
theorem step_cases {s t : State} (h : step s = .next t) :
    (s.inputs = [] ∧ t = s) ∨
    (∃ cw rest, s.inputs = .command cw :: rest ∧
      exec (decode cw) (s.withInputs rest) = .next t) ∨
    (∃ input rest, s.inputs = input :: rest ∧
      (input = .hardReset ∨ ∃ cw, input = .commandCutByHardReset cw) ∧
      t = (s.withInputs rest).hardReset) := by
  unfold step at h
  split at h
  · next hn =>
    injection h with h
    refine .inl ⟨?_, h.symm⟩
    unfold State.nextInput at hn
    split at hn
    · assumption
    · cases hn
  · next cw s' hn =>
    obtain ⟨hi, hs⟩ := nextInput_eq_some hn
    exact .inr (.inl ⟨cw, _, hi, hs ▸ h⟩)
  · next s' hn =>
    injection h with h
    obtain ⟨hi, hs⟩ := nextInput_eq_some hn
    exact .inr (.inr ⟨_, _, hi, .inl rfl, by rw [← hs, h]⟩)
  · next cw s' hn =>
    injection h with h
    obtain ⟨hi, hs⟩ := nextInput_eq_some hn
    exact .inr (.inr ⟨_, _, hi, .inr ⟨cw, rfl⟩, by rw [← hs, h]⟩)

end Sys2Proof.Machine
end

