-- ==== Sys2Proof/Tests/Slice0.lean ====
section
/-! SUPPORT. The model's own tests: expected results are the spec's (95_test_vectors.md and the worked
examples of the rules), never the model's. The last section shows, for every statement of Obligations.lean
that has hypotheses, a concrete input that meets them together. -/

namespace Sys2Proof.Tests

open Sys2Proof Sys2Proof.Machine

/-! ### Helpers -/

/-- The state an outcome gives, if it gives one. -/
def after (o : Host.Outcome State Fault Refusal) : Option State :=
  match o with
  | .next t => some t
  | .fault _ => none
  | .refused _ => none

/-- An engine with these registers. -/
def engine (W : Nat) (state initState : Row W) (rule : RuleTable) (mode : Mode) (configured : Bool)
    (fault : BitVec 2) : Engine W :=
  { state, initState, rule, mode, configured, fault, resetCount := 0 }

/-- A machine with this engine, idle. -/
def idle (e : Engine Config.W) : State := { engine := e, inputs := [], responses := [] }

/-- A configured machine: row 0x64, restore point 0x38, rule 30, FIXED. -/
def configured : State := idle (engine Config.W 0x64 0x38 30 .fixed true 0)

/-- An unconfigured machine that has seen no fault. -/
def unconfigured : State := idle (engine Config.W 0x64 0x38 30 .fixed false 0)

/-! ### WellFormed: an ill-formed term for each check -/

theorem test_wf_reserved_is_no_operation : Instr.WellFormed .reserved = false := by decide
theorem test_wf_rule_256 : (Request.setRule 256).WellFormed 3 = false := by decide
theorem test_wf_mode_2 : (Request.setBoundaryMode 2).WellFormed 3 = false := by decide
/-- V8. -/
theorem test_wf_short_sequence : (Request.setState [1, 0, 1]).WellFormed 8 = false := by decide
theorem test_wf_cell_2 : (Request.setState [1, 2, 1]).WellFormed 3 = false := by decide
theorem test_wf_new_each_operand :
    (Request.new 256 0 [1, 0]).WellFormed 2 = false ∧ (Request.new 0 2 [1, 0]).WellFormed 2 = false ∧
    (Request.new 0 0 [1]).WellFormed 2 = false ∧ (Request.new 0 0 [1, 2]).WellFormed 2 = false ∧
    (Request.new 255 1 [1, 0]).WellFormed 2 = true := by decide

/-! ### Decoding: words written out from R50 and R60 -/

/-- V16: bits all ones, rule 0x1E, mode 0, op 001. -/
theorem test_decode_new :
    decode 0xFFFFFFFFFFFFFFFFFFFFFFFFFFFFFFFF1E1 = .new 30 .fixed (BitVec.allOnes 128) := by
  decide +kernel
/-- `bits = 1`, `rule = 0xB8`, `mode = 1`, `op = 001`: 1*4096 + 184*16 + 8 + 1. -/
theorem test_decode_new_periodic : decode 0x1B89 = .new 184 .periodic 1 := by decide +kernel
/-- V17 and, with every ignored field set (as V29), the same command. -/
theorem test_decode_step :
    decode 0b010 = .step ∧ decode 0xFFFFFFFFFFFFFFFFFFFFFFFFFFFFFFFFFF2 = .step := by decide +kernel
/-- V18, V30. -/
theorem test_decode_readState : decode 0b011 = .readState ∧ decode 0xA5A5B = .readState := by
  decide +kernel
/-- V19, V31. -/
theorem test_decode_setRule :
    decode 0b0110_1110_0_100 = .setRule 110 ∧ decode 0x12344 = .setRule 0x34 := by decide +kernel
/-- V23, V24, V32. -/
theorem test_decode_setBoundaryMode :
    decode 0b0101 = .setBoundaryMode .fixed ∧ decode 0b1101 = .setBoundaryMode .periodic ∧
    decode 0xFFFFD = .setBoundaryMode .periodic := by decide +kernel
/-- V25, V33. -/
theorem test_decode_setState :
    decode 0b0001_0000_0000_0000_0_110 = .setState 0b00010000 ∧ decode 0x81FF6 = .setState 0x81 := by
  decide +kernel
/-- V28, V34. -/
theorem test_decode_reset : decode 0b111 = .reset ∧ decode 0xFFFF7 = .reset := by decide +kernel
/-- V35 to V37. -/
theorem test_decode_reserved :
    decode 0 = .reserved ∧ decode 0xABCD0 = .reserved ∧ decode 0x8 = .reserved := by decide +kernel

/-- V10 to V15 and V27, at their own widths: the fields at the document's places. -/
theorem test_fields_narrow :
    assembleWord (0xFF : Row 8) 30 .fixed 1 = 0xFF1E1 ∧
    assembleWord (0x81 : Row 8) 90 .periodic 1 = 0x815A9 ∧
    assembleWord (0xCA : Row 8) 184 .periodic 1 = 0xCAB89 ∧
    assembleWord (0b11010 : Row 5) 184 .periodic 1 = 0x1AB89 ∧
    assembleWord (0x01 : Row 8) 0 .fixed 6 = 0x01006 := by decide +kernel

/-- V21, V22, V24, V16. -/
theorem test_encode :
    encode (.setRule 128) = 0x804 ∧ encode (.setRule 255) = 0xFF4 ∧
    encode (.setBoundaryMode .periodic) = 0xD ∧
    encode (.new 30 .fixed (BitVec.allOnes 128)) = 0xFFFFFFFFFFFFFFFFFFFFFFFFFFFFFFFF1E1 := by
  decide +kernel

/-! ### Rows -/

/-- V1 to V5, V8, V9. -/
theorem test_pack :
    pack 8 [true, false, false, false, false, false, false, false] = some 0x80 ∧
    pack 8 [true, true, false, false, true, false, true, false] = some 0xCA ∧
    pack 5 [true, true, false, true, false] = some 0x1A ∧ pack 1 [true] = some 1 ∧
    pack 8 [true, false, true] = none ∧ pack 8 (List.replicate 9 true) = none := by decide +kernel

/-- The worked example of R90. -/
theorem test_unpack :
    unpack (0x64 : Row 8) = [false, true, true, false, false, true, false, false] := by decide +kernel

/-- V41 to V51: interior cells, and both edges under both modes. -/
theorem test_nextRow :
    nextRow 30 .fixed (0b00111000 : Row 8) = 0b01100100 ∧
    nextRow 90 .periodic (0b10000001 : Row 8) = 0b11000011 ∧
    nextRow 110 .periodic (0b00000001 : Row 8) = 0b00000011 ∧
    nextRow 184 .periodic (0b11001010 : Row 8) = 0b10100101 ∧
    nextRow 30 .periodic (0b10000000 : Row 8) = 0b11000001 ∧
    nextRow 30 .fixed (0b10000000 : Row 8) = 0b11000000 ∧
    nextRow 30 .periodic (0b00000001 : Row 8) = 0b10000011 ∧
    nextRow 30 .fixed (0b00000001 : Row 8) = 0b00000011 := by decide +kernel

/-- V54 to V57 (the neighbour copies), V59. -/
theorem test_nextRow_neighbour_copies :
    nextRow 170 .fixed (0b10110111 : Row 8) = 0b01101110 ∧
    nextRow 170 .periodic (0b10110111 : Row 8) = 0b01101111 ∧
    nextRow 240 .fixed (0b10110111 : Row 8) = 0b01011011 ∧
    nextRow 240 .periodic (0b10110111 : Row 8) = 0b11011011 ∧
    nextRow 254 .fixed (0b00001000 : Row 8) = 0b00011100 := by decide +kernel

/-- V63, V69, V71, V75, S7 at `W` = 1. -/
theorem test_nextRow_narrow :
    nextRow 30 .periodic (1 : Row 1) = 0 ∧ nextRow 128 .fixed (1 : Row 1) = 0 ∧
    nextRow 128 .periodic (1 : Row 1) = 1 ∧ nextRow 30 .periodic (0b01 : Row 2) = 0b01 ∧
    nextRow 90 .periodic (0b10 : Row 2) = 0 ∧ nextRow 30 .periodic (0b101 : Row 3) = 0b001 := by
  decide +kernel

/-- V80 (across the 64-bit boundary), V84, V85, and S7 at `W` = 128. -/
theorem test_nextRow_128 :
    nextRow 30 .fixed (0x00000000000000064000000000000000 : Row 128)
      = 0x000000000000000de000000000000000 ∧
    nextRow 90 .periodic (0x80000000000000000000000000000001 : Row 128)
      = 0xc0000000000000000000000000000003 ∧
    nextRow 90 .fixed (0x80000000000000000000000000000001 : Row 128)
      = 0x40000000000000000000000000000002 ∧
    nextRow 128 .fixed (BitVec.allOnes 128) = 0x7ffffffffffffffffffffffffffffffe := by decide +kernel

/-- V86 to V90. -/
theorem test_planes :
    leftPlane .fixed (0b10000001 : Row 8) = 0b01000000 ∧
    rightPlane .fixed (0b10000001 : Row 8) = 0b00000010 ∧
    leftPlane .periodic (0b10110111 : Row 8) = 0b11011011 ∧
    rightPlane .periodic (0b10110111 : Row 8) = 0b01101111 := by decide +kernel

/-- V92 to V96: the update is the synchronous one; the last column of that table is the in-place one. -/
theorem test_in_place_is_wrong :
    nextRow 240 .fixed (0b10110111 : Row 8) = 0b01011011 ∧
    inPlaceRow 240 .fixed (0b10110111 : Row 8) = 0b00000000 ∧
    inPlaceRow 1 .fixed (0b00000000 : Row 8) = 0b10101010 ∧
    inPlaceRow 30 .fixed (0b11111111 : Row 8) = 0b10101010 := by decide +kernel

/-! ### One instruction -/

/-- V38 (from reset), V40 (a second `NEW` keeps `FAULT`). -/
theorem test_new :
    (after (exec (.new 30 .fixed 0x10) State.reset)).map
        (fun t => (t.engine.state, t.engine.initState, t.engine.rule, t.engine.mode))
      = some (0x10, 0x10, 30, .fixed) ∧
    (after (exec (.new 0 .periodic 0xFF) (idle (engine _ 0xA5 0xCA 184 .fixed true 2)))).map
        (fun t => (t.engine.state, t.engine.configured, t.engine.fault, t.responses))
      = some (0xFF, true, 2, [⟨.ok, none⟩]) := by decide +kernel

/-- V79, at the canonical width: the next generation, and the restore point untouched. -/
theorem test_step :
    (after (exec .step (idle (engine _ 0x38000000000000000 0x10 30 .fixed true 0)))).map
        (fun t => (t.engine.state, t.engine.initState, t.responses))
      = some (0x64000000000000000, 0x10, [⟨.ok, none⟩]) := by decide +kernel

/-- V97: the data is `STATE`, not `INIT_STATE`. V99: no data before `NEW`. -/
theorem test_readState :
    (after (exec .readState configured)).map (fun t => (t.responses, t.engine))
      = some ([⟨.ok, some 0x64⟩], configured.engine) ∧
    (after (exec .readState unconfigured)).map (fun t => (t.responses, t.engine.fault))
      = some ([⟨.fault .notConfigured, none⟩], 2) := by decide +kernel

/-- The worked example of R92: the row stays. -/
theorem test_setRule :
    (after (exec (.setRule 90) configured)).map (fun t => (t.engine.rule, t.engine.state))
      = some (90, 0x64) := by decide +kernel

/-- V101 and the worked example of R94. -/
theorem test_setBoundaryMode :
    (after (exec (.setBoundaryMode .periodic) configured)).map
        (fun t => (t.engine.mode, t.engine.state)) = some (.periodic, 0x64) := by decide +kernel

/-- The worked example of R96. V114: nothing is written before `NEW`. -/
theorem test_setState :
    (after (exec (.setState 0x10) configured)).map (fun t => (t.engine.state, t.engine.initState))
      = some (0x10, 0x10) ∧
    (after (exec (.setState 0xF0) unconfigured)).map
        (fun t => (t.engine.state, t.engine.initState, t.engine.configured))
      = some (0x64, 0x38, false) := by decide +kernel

/-- The worked example of R99. -/
theorem test_reset :
    (after (exec .reset configured)).map (fun t => (t.engine.state, t.engine.initState))
      = some (0x38, 0x38) := by decide +kernel

/-- V112 (`ReservedOp` before `NotConfigured`), V113 (the first fault is kept), V115. -/
theorem test_reserved :
    (after (exec .reserved unconfigured)).map (fun t => (t.engine.fault, t.responses))
      = some (1, [⟨.fault .reservedOp, none⟩]) ∧
    (after (exec .reserved (idle (engine _ 0 0 0 .fixed false 2)))).map (fun t => t.engine.fault)
      = some 2 ∧
    (after (exec .reserved configured)).map (fun t => t.engine)
      = some { configured.engine with fault := 1 } := by decide +kernel

/-! ### One step of the machine -/

/-- V111: `STEP` as the first command after reset. -/
theorem test_step_from_reset :
    (after (step (State.reset.withFetchWord 8 2))).map
        (fun t => (t.engine.fault, t.engine.configured, t.inputs, t.responses))
      = some (2, false, [], [⟨.fault .notConfigured, none⟩]) := by decide +kernel

/-- V117: hard reset clears `FAULT` and `CONFIGURED`, and the command after it stays. R132: so does a hard
reset that cuts a command short, and there is no response. -/
theorem test_hard_reset :
    (after (step { configured with inputs := [.hardReset, .command 2] })).map
        (fun t => (t.engine.configured, t.engine.fault, t.inputs)) = some (false, 0, [.command 2]) ∧
    (after (step { configured with inputs := [.commandCutByHardReset 3] })).map
        (fun t => (t.engine.configured, t.responses)) = some (false, []) := by decide +kernel

/-! ### The assembler (R59, R60) -/

theorem test_assemble_new :
    assembleLine 8 "NEW 30, FIXED, c\"11111111\" ; all ones".toList = .word 0xFF1E1 ∧
    assembleLine 8 "NEW 0x1E, FIXED, 0xFF".toList = .word 0xFF1E1 ∧
    assembleLine 5 "NEW 0b10111000, PERIODIC, c\"11010\"".toList = .word 0x1AB89 := by decide +kernel

theorem test_assemble_others :
    assembleLine 8 "  READ_STATE ; -> 00111000".toList = .word 3 ∧
    assembleLine 8 "SET_BOUNDARY_MODE PERIODIC".toList = .word 0xD ∧
    assembleLine 8 "WRITE_STATE c\"00010000\"".toList = .word 0x10006 ∧
    assembleLine 8 "; comment".toList = .blank := by decide +kernel

theorem test_assemble_refuses :
    assembleLine 8 "SET_STATE c\"101\"".toList = .refused ∧
    assembleLine 5 "SET_STATE 0x20".toList = .refused ∧
    assembleLine 8 "SET_STATE 0x1".toList = .refused ∧
    assembleLine 8 "SET_RULE 256".toList = .refused ∧ assembleLine 8 "NOP".toList = .refused := by
  decide +kernel

/-! ### Witnesses: inputs that meet the hypotheses of the statements, at the edges of their ranges -/

/-- `DecodeFollowsTheOpcodeMap`, and every clause that begins `opField cw = k → decode cw = …`. -/
theorem witness_every_opcode : ∀ op : BitVec 3, ∃ cw : CommandWord Config.W, opField cw = op := by
  decide +kernel

/-- `FieldsOfTheCommandWordBitByBit`: the last bit of each field. -/
theorem witness_field_bits : 2 < 3 ∧ 7 < 8 ∧ Config.W - 1 < Config.W := by decide

/-- `IgnoredFieldsHaveNoEffect`: two words that differ only in ignored fields, one with an operand. -/
theorem witness_ignored_fields :
    (0xFFFF2 : CommandWord Config.W) ≠ 2 ∧
    opField (0xFFFF2 : CommandWord Config.W) = opField (2 : CommandWord Config.W) ∧
    (0x12344 : CommandWord Config.W) ≠ 0x344 ∧
    opField (0x12344 : CommandWord Config.W) = opField (0x344 : CommandWord Config.W) ∧
    ruleField (0x12344 : CommandWord Config.W) = ruleField (0x344 : CommandWord Config.W) := by
  decide +kernel

/-- `DecodeOfEncodeIsTheInstruction`: words of each class with operands. -/
theorem witness_operand_words :
    opField (0x1B89 : CommandWord Config.W) = 1 ∧ opField (0x6E4 : CommandWord Config.W) = 4 ∧
    opField (0xD : CommandWord Config.W) = 5 ∧ opField (0x10006 : CommandWord Config.W) = 6 := by
  decide +kernel

/-- `OneResponsePerCommandInOrder`: a command of a sequence and its response. -/
theorem witness_response_in_order :
    ([3, 0] : List (CommandWord 8))[1]? = some 0 ∧
    (executeAll ([3, 0] : List (CommandWord 8)) (engine 8 1 1 1 .fixed true 0)).2[1]?
      = some ⟨.fault .reservedOp, none⟩ := by decide +kernel

/-- `PackIsTheBigEndianNumber`, `PackAndUnpackAreInverse`: a sequence of the width and one that is not. -/
theorem witness_sequence_lengths :
    [true, false].length = 2 ∧ [true].length ≠ 2 ∧ 1 < 2 := by decide

/-- `UnpackIsMostSignificantFirst` and every clause over `i < W`: the first and the last cell. -/
theorem witness_cells : 0 < Config.W ∧ Config.W - 1 < Config.W := by decide

/-- `ContractViolationsHaveNoCommandWord`: a request that keeps the contract and one for each violation. -/
theorem witness_requests :
    (Request.new 255 1 [1, 0]).WellFormed 2 = true ∧ (Request.setRule 256).WellFormed 2 = false ∧
    256 ≤ 256 ∧ 2 ≤ 2 ∧ [1].length ≠ 2 ∧ (∃ c ∈ [0, 2], 2 ≤ c) := by decide

/-- `ReadStateIsPure`: a configured engine and commands that do not write the row. -/
theorem witness_no_row_write :
    (engine 8 1 1 1 .fixed true 0).configured = true ∧
    ∀ cw ∈ ([0, 3, 4, 5] : List (CommandWord 8)), writesRow cw = false :=
  ⟨rfl, by
    intro cw h
    simp only [List.mem_cons, List.not_mem_nil, or_false] at h
    rcases h with rfl | rfl | rfl | rfl <;> decide +kernel⟩

/-- `RunIsTheSequenceOfCommands`: issued commands with something issued later, and the five words. -/
theorem witness_issued_commands :
    ({ configured with inputs := [.command 2, .command 3, .hardReset] } : State).inputs
      = [2, 3].map .command ++ [.hardReset] ∧
    (engine 8 1 1 1 .fixed true 0).configured = true ∧ opField (2 : CommandWord 8) = 2 ∧
    opField (3 : CommandWord 8) = 3 ∧ opField (4 : CommandWord 8) = 4 ∧
    opField (6 : CommandWord 8) = 6 ∧ opField (7 : CommandWord 8) = 7 := by decide +kernel

/-- Every statement over a configured machine and every one over an unconfigured one. -/
theorem witness_configured :
    configured.engine.configured = true ∧ unconfigured.engine.configured = false ∧
    (engine 8 1 2 0 .fixed true 0).rule = 0 ∧ (engine 8 1 2 255 .fixed true 0).rule = 255 := by decide

/-- `NewFromASequence`: operands in range, with a sequence of `W` cells and with another. -/
theorem witness_new_from_a_sequence :
    255 < 256 ∧ 1 < 2 ∧ (∀ c ∈ List.replicate Config.W 1, c < 2) ∧
    (List.replicate Config.W 1).length = Config.W ∧ [1].length ≠ Config.W := by decide +kernel

/-- `NeighbourhoodExtractor`: interior and edge cells, at width 1 and above. -/
theorem witness_neighbours :
    (0 : Nat) < 1 ∧ (1 ≤ 1 ∧ 1 < 2) ∧ 0 + 2 ≤ 2 := by decide

/-- `NeighbourPlanesHoldTheNeighbours` at width 1, and `EdgesOfTheAllOnesRow` at its least width. -/
theorem witness_all_ones : 2 ≤ 2 ∧ (0b11 : Row 2).toNat = 2 ^ 2 - 1 := by decide

/-- `BitParallelUpdateEqualsThePerCellUpdate`: masks and bits in range. -/
theorem witness_masks : 7 < 8 ∧ 127 < Config.W := by decide

/-- `NarrowRows`: the two cells of a row of width 2. -/
theorem witness_two_cells : (cell (0b10 : Row 2) 0).toNat = 1 ∧ (cell (0b10 : Row 2) 1).toNat = 0 := by
  decide

/-- `StepIsLocal`: two different rows that agree on the three cells round cell 0, and a row whose edge cells
are 0. -/
theorem witness_local :
    (0b10000000 : Row 8) ≠ 0b10010000 ∧
    cell (0b10000000 : Row 8) ((0 + 8 - 1) % 8) = cell (0b10010000 : Row 8) ((0 + 8 - 1) % 8) ∧
    cell (0b10000000 : Row 8) 0 = cell (0b10010000 : Row 8) 0 ∧
    cell (0b10000000 : Row 8) ((0 + 1) % 8) = cell (0b10010000 : Row 8) ((0 + 1) % 8) ∧
    cell (0b00010000 : Row 8) 0 = false ∧ cell (0b00010000 : Row 8) (8 - 1) = false ∧
    1 ≤ 6 ∧ 6 + 2 ≤ 8 := by decide

/-- `ResetRestoresTheRow`: a `NEW` or `SET_STATE` and then a `RESET`, and two in a row. -/
theorem witness_reset_twice :
    ∃ t u : State, configured.engine.configured = true ∧ exec .reset configured = .next t ∧
      exec .reset t = .next u ∧ (Instr.setState 1).opcode = 6 ∧
      ∃ v w : State, exec (.setState 1) configured = .next v ∧ exec .reset v = .next w :=
  ⟨_, _, rfl, rfl, rfl, rfl, _, _, rfl, rfl⟩

/-- `ResetRestoresTheLastRestorePoint`: a start of either kind, and commands that leave the restore point
alone. -/
theorem witness_restore_point :
    opField (0x10001 : CommandWord 8) = 1 ∧ opField (0x10006 : CommandWord 8) = 6 ∧
    (engine 8 1 1 1 .fixed true 0).configured = true ∧
    (∀ cw ∈ ([2, 4, 5, 3, 7, 0] : List (CommandWord 8)), movesRestorePoint cw = false) ∧
    opField (7 : CommandWord 8) = 7 :=
  ⟨rfl, rfl, rfl, by
    intro cw h
    simp only [List.mem_cons, List.not_mem_nil, or_false] at h
    rcases h with rfl | rfl | rfl | rfl | rfl | rfl <;> decide +kernel, rfl⟩

/-- `OnlyNewConfigures`, `EveryCommandCompletesOrFaults`: an instruction that is neither `NEW` nor
reserved, with its next state. -/
theorem witness_next_state :
    unconfigured.engine.configured = false ∧ Instr.step.opcode ≠ 1 ∧ Instr.step.opcode ≠ 0 ∧
    ∃ t : State, exec .step unconfigured = .next t := ⟨rfl, by decide, by decide, _, rfl⟩

/-- `AccessTable`: a command that changes each register, and one that faults. -/
theorem witness_access_table :
    (executeWord (0x10001 : CommandWord 8) (engine 8 1 2 3 .periodic false 0)).1
      = engine 8 0x10 0x10 0 .fixed true 0 ∧
    (executeWord (2 : CommandWord 8) (engine 8 1 2 3 .fixed false 0)).1.fault = 2 ∧
    (executeWord (2 : CommandWord 8) (engine 8 1 2 3 .fixed false 0)).2.status ≠ .ok := by
  decide +kernel

/-- `EnginesShareNothing`: two engines, one of which takes a step. -/
theorem witness_two_engines :
    ∃ t : State, ([configured, unconfigured] : List State)[1]? = some unconfigured ∧
      step unconfigured = .next t ∧ (0 : Nat) ≠ 1 := ⟨_, rfl, rfl, by decide⟩

/-- `UnconfiguredOperationsRaiseNotConfigured`, `UnspecifiedContentsNeverReachTheHost`: two unconfigured
engines that differ in all four unspecified registers and hold the same `FAULT`. -/
theorem witness_two_unconfigured :
    (engine 8 1 2 3 .fixed false 2).configured = false ∧
    (engine 8 4 5 6 .periodic false 2).configured = false ∧
    (engine 8 1 2 3 .fixed false 2).fault = (engine 8 4 5 6 .periodic false 2).fault ∧
    opField (2 : CommandWord 8) ≠ 0 ∧ opField (2 : CommandWord 8) ≠ 1 ∧
    opField (1 : CommandWord 8) = 1 := by decide

/-- `FaultHoldsTheFirstFault`: an engine with a fault and one without. -/
theorem witness_fault_values :
    (engine 8 1 1 1 .fixed true 2).fault ≠ 0 ∧ (engine 8 1 1 1 .fixed true 0).fault = 0 := by decide

/-- `StepRunsTheDecodedCommand`, `HardResetUnconfigures`, `HardResetAbandonsTheCommand`, `IdleStepHolds`:
each kind of input at the head, and none. -/
theorem witness_inputs :
    ({ configured with inputs := [.command 2] } : State).inputs = [.command 2] ∧
    ({ configured with inputs := [.hardReset] } : State).inputs = [.hardReset] ∧
    ({ configured with inputs := [.commandCutByHardReset 2] } : State).inputs
      = [.commandCutByHardReset 2] ∧
    configured.inputs = [] ∧ 7 < 2 ^ 3 ∧ 140 ≤ Config.W + 12 := by decide

/-- `NothingRunsBeforeNew`: operations other than `NEW`, and a `NEW` with operations after it. -/
theorem witness_before_new :
    (∀ cw ∈ ([2, 3, 4, 5, 6, 7] : List (CommandWord 8)), opField cw ≠ 0 ∧ opField cw ≠ 1) ∧
    opField (1 : CommandWord 8) = 1 :=
  ⟨by
    intro cw h
    simp only [List.mem_cons, List.not_mem_nil, or_false] at h
    rcases h with rfl | rfl | rfl | rfl | rfl | rfl <;> decide +kernel, rfl⟩

/-- `OneCommandInFlight`, `AcceptedCommandIsAnswered`: an idle port, a command presented to it, and the two
clocks a latency of 1 needs; and a port with a command in flight. -/
theorem witness_port :
    ({ engine := engine 8 1 1 1 .fixed true 0, inFlight := none } : PortState 8).inFlight = none ∧
    (⟨false, true, 2⟩ : InputPorts 8).hreset = false ∧ (⟨false, true, 2⟩ : InputPorts 8).cmdValid = true ∧
    [(⟨false, true, 3⟩ : InputPorts 8), ⟨false, false, 0⟩].length = 1 + 1 ∧
    (∀ pins ∈ [(⟨false, true, 3⟩ : InputPorts 8), ⟨false, false, 0⟩], pins.hreset = false) ∧
    ({ engine := engine 8 1 1 1 .fixed true 0, inFlight := some (2, 0) } : PortState 8).inFlight
      = some (2, 0) ∧
    (⟨true, false, 0⟩ : InputPorts 8).hreset = true := by decide

/-- `EveryStepKeepsTheInvariant`: a state that meets the invariant with a fault recorded, a configured engine
and data in a response, and its next state. -/
theorem witness_invariant :
    ∃ s t : State, s.Inv ∧ s.engine.fault ≠ 0 ∧ s.engine.configured = true ∧ step s = .next t :=
  ⟨{ engine := engine _ 1 1 1 .fixed true 2, inputs := [.command 2],
     responses := [⟨.fault .notConfigured, none⟩, ⟨.ok, none⟩, ⟨.ok, some 1⟩] }, _,
   ⟨by decide, fun _ => ⟨⟨.fault .notConfigured, none⟩, by decide, by decide⟩,
    fun _ => ⟨⟨.ok, none⟩, by decide, rfl⟩,
    by intro r hr; simp at hr; rcases hr with rfl | rfl | rfl <;> simp [Response.Legal]⟩,
   by decide, rfl, rfl⟩

end Sys2Proof.Tests
end

section
/-! PROOFS of the statements about the state, spec 10_state.md (R17, R18, R23, R26). The access table
rests on three facts about every command word: it completes or faults, which registers it may write, and
which registers it does not read (`Unread`). -/

namespace Sys2Proof.Machine

variable {W : Nat}

/-! ### Completion or fault (60_exceptions.md R110) -/

/-- A command either takes a fault or completes with status `OK` and leaves `FAULT` alone. -/
theorem executeWord_raises_or_ok (cw : CommandWord W) (e : Engine W) :
    (∃ cause, executeWord cw e = raise cause e) ∨
    ((executeWord cw e).2.status = .ok ∧ (executeWord cw e).1.fault = e.fault) := by
  rcases executeWord_cases cw e with ⟨-, h⟩ | ⟨-, -, -, h⟩ | ⟨-, h⟩ |
    ⟨-, ⟨-, h⟩ | ⟨-, h⟩ | ⟨-, h⟩ | ⟨-, h⟩ | ⟨-, h⟩ | ⟨-, h⟩⟩
  · exact .inl ⟨_, h⟩
  · exact .inl ⟨_, h⟩
  all_goals exact .inr (by rw [h]; exact ⟨rfl, rfl⟩)

/-- A faulting command writes its code to `FAULT` if that was 0, and nothing else (R114). -/
theorem executeWord_of_status_ne_ok {cw : CommandWord W} {e : Engine W}
    (h : (executeWord cw e).2.status ≠ .ok) :
    (executeWord cw e).1 =
      { e with fault := if e.fault = 0 then (executeWord cw e).2.status.code else e.fault } := by
  rcases executeWord_raises_or_ok cw e with ⟨cause, hraise⟩ | ⟨hok, -⟩
  · rw [hraise]; rfl
  · exact absurd hok h

/-- Only a faulting command writes `FAULT`, and only over 0 (R114). -/
theorem executeWord_fault_ne {cw : CommandWord W} {e : Engine W}
    (h : (executeWord cw e).1.fault ≠ e.fault) :
    e.fault = 0 ∧ (executeWord cw e).2.status ≠ .ok := by
  rcases executeWord_raises_or_ok cw e with ⟨cause, hraise⟩ | ⟨-, hkept⟩
  · rw [hraise] at h ⊢
    exact ⟨by_contra fun hne => h (firstFault_of_ne_zero hne cause), nofun⟩
  · exact absurd hkept h

/-! ### The write columns of the access table (10_state.md R23) -/

/-- The operations that may change `STATE`, `INIT_STATE`, `RULE`, `MODE` and `CONFIGURED`. -/
theorem executeWord_changes (cw : CommandWord W) (e : Engine W) :
    ((executeWord cw e).1.state ≠ e.state →
      opField cw = 1 ∨ opField cw = 2 ∨ opField cw = 6 ∨ opField cw = 7) ∧
    ((executeWord cw e).1.initState ≠ e.initState → opField cw = 1 ∨ opField cw = 6) ∧
    ((executeWord cw e).1.rule ≠ e.rule → opField cw = 1 ∨ opField cw = 4) ∧
    ((executeWord cw e).1.mode ≠ e.mode → opField cw = 1 ∨ opField cw = 5) ∧
    ((executeWord cw e).1.configured ≠ e.configured → opField cw = 1) := by
  rcases executeWord_cases cw e with ⟨-, h⟩ | ⟨-, -, -, h⟩ | ⟨hop, -⟩ |
    ⟨-, ⟨hop, h⟩ | ⟨-, h⟩ | ⟨hop, h⟩ | ⟨hop, h⟩ | ⟨hop, h⟩ | ⟨hop, h⟩⟩
  · simp [h, raise_eq]
  · simp [h, raise_eq]
  · simp [hop]
  all_goals simp [*]

theorem executeWord_of_new {cw : CommandWord W} (h : opField cw = 1) :
    executeWord cw = newOp (ruleField cw) (modeField cw) (bitsField cw) := by
  simp [executeWord, h]

theorem executeWord_of_reserved {cw : CommandWord W} (h : opField cw = 0) :
    executeWord cw = raise .reservedOp := by
  simp only [executeWord, h]; rfl

/-! ### The read columns of the access table (10_state.md R23) -/

/-- What the operations other than `NEW` do once the `CONFIGURED` check has passed; the last arm is
`SET_STATE`, `op = 6`. -/
def configuredOp (cw : CommandWord W) : Engine W → Engine W × Response W :=
  match (opField cw).toNat with
  | 2 => fun e => respondOk (e.writeState (nextRow e.rule e.mode e.state))
  | 3 => fun e => respondData e e.state
  | 4 => fun e => respondOk (e.writeRule (ruleField cw))
  | 5 => fun e => respondOk (e.writeMode (modeField cw))
  | 7 => fun e => respondOk (e.writeState e.initState)
  | _ => fun e => respondOk ((e.writeState (bitsField cw)).writeInitState (bitsField cw))

theorem executeWord_eq_whenConfigured {cw : CommandWord W} (h₀ : opField cw ≠ 0)
    (h₁ : opField cw ≠ 1) : executeWord cw = whenConfigured (configuredOp cw) := by
  have hops : ∀ x : BitVec 3,
      x = 0 ∨ x = 1 ∨ x = 2 ∨ x = 3 ∨ x = 4 ∨ x = 5 ∨ x = 6 ∨ x = 7 := by decide
  rcases hops (opField cw) with h | h | h | h | h | h | h | h
  · exact absurd h h₀
  · exact absurd h h₁
  all_goals simp only [executeWord, configuredOp, h]; rfl

/-- The operation does not read the register `put` writes: with that register overwritten beforehand it
answers alike and leaves every other register alike. -/
def Unread {α : Type} (put : Engine W → α → Engine W)
    (op : Engine W → Engine W × Response W) : Prop :=
  ∀ (e : Engine W) (x kept : α),
    (op (put e x)).2 = (op e).2 ∧ put (op (put e x)).1 kept = put (op e).1 kept

/-- The `CONFIGURED` check reads `CONFIGURED` alone. -/
theorem Unread.whenConfigured {α : Type} {put : Engine W → α → Engine W}
    {op : Engine W → Engine W × Response W}
    (hput : ∀ e x, (put e x).configured = e.configured)
    (hraise : Unread put (raise .notConfigured)) (hop : Unread put op) :
    Unread put (whenConfigured op) := by
  intro e x kept
  cases h : e.configured with
  | false =>
    rw [whenConfigured_of_unconfigured h, whenConfigured_of_unconfigured ((hput e x).trans h)]
    exact hraise e x kept
  | true =>
    rw [whenConfigured_of_configured h, whenConfigured_of_configured ((hput e x).trans h)]
    exact hop e x kept

/-- A register other than `CONFIGURED` is unread by a command when the three things a command can be do
not read it: taking a fault, `NEW`, and an operation past the `CONFIGURED` check. -/
theorem Unread.executeWord {α : Type} {put : Engine W → α → Engine W} {cw : CommandWord W}
    (hput : ∀ e x, (put e x).configured = e.configured)
    (hraise : ∀ cause, Unread put (raise cause))
    (hnew : ∀ rule mode bits, Unread put (newOp rule mode bits))
    (hop : Unread put (configuredOp cw)) : Unread put (executeWord cw) := by
  by_cases h₀ : opField cw = 0
  · rw [executeWord_of_reserved h₀]; exact hraise _
  by_cases h₁ : opField cw = 1
  · rw [executeWord_of_new h₁]; exact hnew _ _ _
  rw [executeWord_eq_whenConfigured h₀ h₁]
  exact .whenConfigured hput (hraise _) hop

/-- Only `STEP` and `READ_STATE` read `STATE`. -/
theorem unread_state {cw : CommandWord W} (h₂ : opField cw ≠ 2) (h₃ : opField cw ≠ 3) :
    Unread Engine.writeState (executeWord cw) := by
  refine .executeWord (fun _ _ => rfl) (fun _ _ _ _ => ⟨rfl, rfl⟩)
    (fun _ _ _ _ _ _ => ⟨rfl, rfl⟩) ?_
  unfold configuredOp
  split
  case h_1 h => exact absurd (BitVec.eq_of_toNat_eq h) h₂
  case h_2 h => exact absurd (BitVec.eq_of_toNat_eq h) h₃
  all_goals exact fun _ _ _ => ⟨rfl, rfl⟩

/-- Only `RESET` reads `INIT_STATE`. -/
theorem unread_initState {cw : CommandWord W} (h₇ : opField cw ≠ 7) :
    Unread Engine.writeInitState (executeWord cw) := by
  refine .executeWord (fun _ _ => rfl) (fun _ _ _ _ => ⟨rfl, rfl⟩)
    (fun _ _ _ _ _ _ => ⟨rfl, rfl⟩) ?_
  unfold configuredOp
  split
  case h_5 h => exact absurd (BitVec.eq_of_toNat_eq h) h₇
  all_goals exact fun _ _ _ => ⟨rfl, rfl⟩

/-- Only `STEP` reads `RULE`. -/
theorem unread_rule {cw : CommandWord W} (h₂ : opField cw ≠ 2) :
    Unread Engine.writeRule (executeWord cw) := by
  refine .executeWord (fun _ _ => rfl) (fun _ _ _ _ => ⟨rfl, rfl⟩)
    (fun _ _ _ _ _ _ => ⟨rfl, rfl⟩) ?_
  unfold configuredOp
  split
  case h_1 h => exact absurd (BitVec.eq_of_toNat_eq h) h₂
  all_goals exact fun _ _ _ => ⟨rfl, rfl⟩

/-- Only `STEP` reads `MODE`. -/
theorem unread_mode {cw : CommandWord W} (h₂ : opField cw ≠ 2) :
    Unread Engine.writeMode (executeWord cw) := by
  refine .executeWord (fun _ _ => rfl) (fun _ _ _ _ => ⟨rfl, rfl⟩)
    (fun _ _ _ _ _ _ => ⟨rfl, rfl⟩) ?_
  unfold configuredOp
  split
  case h_1 h => exact absurd (BitVec.eq_of_toNat_eq h) h₂
  all_goals exact fun _ _ _ => ⟨rfl, rfl⟩

/-- The reserved opcode and `NEW` do not read `CONFIGURED`. -/
theorem unread_configured {cw : CommandWord W} (h : opField cw = 0 ∨ opField cw = 1) :
    Unread (fun e b => { e with configured := b }) (executeWord cw) := by
  rcases h with h | h
  · rw [executeWord_of_reserved h]; exact fun _ _ _ => ⟨rfl, rfl⟩
  · rw [executeWord_of_new h]; exact fun _ _ _ => ⟨rfl, rfl⟩

/-- No command reads `FAULT`, but to record a fault in `FAULT` itself. -/
theorem unread_fault (cw : CommandWord W) :
    Unread (fun e f => { e with fault := f }) (executeWord cw) := by
  refine .executeWord (fun _ _ => rfl) (fun _ _ _ _ => ⟨rfl, rfl⟩)
    (fun _ _ _ _ _ _ => ⟨rfl, rfl⟩) ?_
  unfold configuredOp
  split
  all_goals exact fun _ _ _ => ⟨rfl, rfl⟩

/-- Settles O41: the write columns, then one `Unread` fact per read column. -/
theorem accessTable : Obligations.AccessTable := by
  refine ⟨fun W cw e => ?_, fun W cw e row => ⟨?_, ?_, ?_, ?_, ?_, ?_⟩, fun _ _ => ⟨rfl, rfl⟩⟩
  · obtain ⟨hstate, hinit, hrule, hmode, hconfigured⟩ := executeWord_changes cw e
    refine ⟨hstate, hinit, hrule, hmode, hconfigured, executeWord_fault_ne, fun hnew => ?_,
      executeWord_of_status_ne_ok⟩
    rw [executeWord_of_new hnew, newOp_eq]
  · exact fun h₂ h₃ => unread_state h₂ h₃ e row e.state
  · exact fun h₇ => unread_initState h₇ e row e.initState
  · exact fun rule h₂ => unread_rule h₂ e rule e.rule
  · exact fun mode h₂ => unread_mode h₂ e mode e.mode
  · exact fun b h => unread_configured h e b e.configured
  · exact fun f => unread_fault cw e f e.fault

/-! ### `CONFIGURED` (10_state.md R18) -/

/-- An instruction leaves `CONFIGURED` set exactly if it was set or the instruction is `NEW`. -/
theorem instrOp_configured (i : Instr) (e : Engine Config.W) :
    (instrOp i e).1.configured = (e.configured || decide (i.opcode = 1)) := by
  rcases instrOp_cases i e with ⟨rfl, h⟩ | ⟨-, hop, -, h⟩ | ⟨_, _, _, rfl, h⟩ | ⟨hc, hdone⟩
  · simp [h, raise_eq, Instr.opcode]
  · rw [h, decide_eq_false hop, Bool.or_false]; rfl
  · simp [h, Instr.opcode]
  · rcases hdone with ⟨-, h⟩ | ⟨-, h⟩ | ⟨_, -, h⟩ | ⟨_, -, h⟩ | ⟨_, -, h⟩ | ⟨-, h⟩ <;>
      simp [h, hc]

/-- On an unconfigured engine every operation but `NEW` raises `NotConfigured` (60_exceptions.md R112). -/
theorem instrOp_of_unconfigured {i : Instr} {e : Engine Config.W} (hc : e.configured = false)
    (h₁ : i.opcode ≠ 1) (h₀ : i.opcode ≠ 0) : instrOp i e = raise .notConfigured e := by
  rcases instrOp_cases i e with ⟨rfl, -⟩ | ⟨-, -, -, h⟩ | ⟨_, _, _, rfl, -⟩ | ⟨htrue, -⟩
  · exact absurd rfl h₀
  · exact h
  · exact absurd rfl h₁
  · simp [hc] at htrue

/-- Settles O40: `CONFIGURED` after an instruction, and the fault without it, are those of `instrOp`. -/
theorem onlyNewConfigures : Obligations.OnlyNewConfigures := by
  refine ⟨State.reset_configured, fun _ => Engine.hardReset_configured, fun i s t h => ?_,
    fun i s hc h₁ h₀ => ⟨_, exec_eq_perform i s, ?_⟩⟩
  · rw [exec_eq_perform, perform_eq] at h
    cases h
    exact instrOp_configured i s.engine
  · rw [instrOp_of_unconfigured hc h₁ h₀]
    rfl

/-! ### `STATE` and the restore point (10_state.md R17) -/

/-- Row 0x01 under rule 30 becomes 0x03, and the restore point stays 0x01. -/
theorem step_separates_state_from_initState :
    (executeWord (2 : CommandWord 8) ⟨1, 1, 30, .fixed, true, 0, 0⟩).1 =
      ⟨3, 1, 30, .fixed, true, 0, 0⟩ := by decide

/-- Settles O39: each operation's effect, and rule 30 moving a row off its restore point. -/
theorem stateAndRestorePointAreIndependent : Obligations.StateAndRestorePointAreIndependent := by
  refine ⟨fun W cw e h => ?_, fun W cw e h₂ => ?_,
    2, ⟨1, 1, 30, .fixed, true, 0, 0⟩, rfl, rfl, ?_⟩
  · rcases h with hnew | ⟨hc, h₆ | h₇⟩
    · rw [executeWord_of_new hnew, newOp_eq]
    · simp [executeWord, h₆, setStateOp_configured hc]
    · simp [executeWord, h₇, resetOp_configured hc]
  · obtain ⟨-, hinit, -⟩ := executeWord_changes cw e
    by_contra hne
    rcases hinit hne with h | h <;> simp [h] at h₂
  · rw [step_separates_state_from_initState]
    decide

/-! ### Several engines (10_state.md R26) -/

theorem stepEngine_of_next {system : List State} {n : Nat} {s t : State}
    (hs : system[n]? = some s) (ht : step s = .next t) :
    stepEngine n system = system.set n t := by
  simp [stepEngine, hs, ht]

/-- One engine's turn changes at most its own entry of the system. -/
theorem stepEngine_eq_self_or_set (n : Nat) (system : List State) :
    stepEngine n system = system ∨ ∃ t, stepEngine n system = system.set n t := by
  unfold stepEngine
  split
  · exact .inl rfl
  · split
    · exact .inr ⟨_, rfl⟩
    · exact .inl rfl
    · exact .inl rfl

/-- Settles O42: a turn is at most a `List.set` at the engine's own place. -/
theorem enginesShareNothing : Obligations.EnginesShareNothing := by
  refine fun system n => ⟨?_, fun m hm => ?_, fun s t hs ht => ?_⟩
  · rcases stepEngine_eq_self_or_set n system with h | ⟨t, h⟩ <;> simp [h]
  · rcases stepEngine_eq_self_or_set n system with h | ⟨t, h⟩
    · rw [h]
    · rw [h, List.getElem?_set_ne hm.symm]
  · obtain ⟨hn, -⟩ := List.getElem?_eq_some_iff.mp hs
    rw [stepEngine_of_next hs ht, List.getElem?_set_self hn]

end Sys2Proof.Machine
end

section
/-! PROOFS of the statements about memory, spec 20_memory.md (R31 to R33, R37, R39): `pack` and `unpack`,
and what a command may rely on after the ones before it. -/

namespace Sys2Proof.Machine

variable {W : Nat}

/-! ### `pack` and `unpack` (R31 to R33) -/

theorem pack_of_length_eq {seq : List Bool} (h : seq.length = W) :
    pack W seq = some (packCells W seq) := if_pos h

theorem pack_of_length_ne {seq : List Bool} (h : seq.length ≠ W) : pack W seq = none := if_neg h

/-- The number of a sequence as R31 writes it: the sum of `b_i * 2^(n-1-i)` over its `n` elements. -/
theorem packNat_eq_sum (seq : List Bool) :
    packNat seq =
      ∑ i ∈ Finset.range seq.length, (seq.getD i false).toNat * 2 ^ (seq.length - 1 - i) := by
  induction seq with
  | nil => rfl
  | cons b rest ih =>
    have hexp (i : Nat) : rest.length + 1 - 1 - (i + 1) = rest.length - 1 - i := by omega
    simp only [packNat, List.length_cons, Finset.sum_range_succ', List.getD_cons_succ, hexp, ← ih]
    rw [List.getD_cons_zero, Nat.sub_zero, Nat.add_sub_cancel, Nat.mul_comm]

theorem getElem?_unpack (X : Row W) {i : Nat} (h : i < W) : (unpack X)[i]? = some (cell X i) := by
  have hlen : i < (unpack X).length := by rwa [length_unpack]
  rw [List.getElem?_eq_getElem hlen, getElem_unpack]

@[simp] theorem unpack_packCells {seq : List Bool} (h : seq.length = W) :
    unpack (packCells W seq) = seq := by
  refine List.ext_getElem (by rw [length_unpack, h]) fun i _ hi => ?_
  rw [getElem_unpack, cell_packCells h (h ▸ hi)]

@[simp] theorem packCells_unpack (X : Row W) : packCells W (unpack X) = X :=
  row_ext fun i hi => by rw [cell_packCells (length_unpack X) hi, getElem_unpack]

/-- Settles O10: the sum is the number of the sequence, and each element is a cell of the packed row. -/
theorem packIsTheBigEndianNumber : Obligations.PackIsTheBigEndianNumber := by
  refine fun W seq => ⟨fun h => ⟨packCells W seq, pack_of_length_eq h, ?_, fun i hi => ?_⟩,
    pack_of_length_ne⟩
  · rw [toNat_packCells h, packNat_eq_sum, h]
  · rw [cell_packCells h hi, List.getElem?_eq_getElem (h ▸ hi)]

/-- Settles O11: the elements of `unpack` are the cells, and cell `i` is bit `W-1-i`. -/
theorem unpackIsMostSignificantFirst : Obligations.UnpackIsMostSignificantFirst := by
  refine fun W X => ⟨length_unpack X, fun i hi => ⟨?_, getElem?_unpack X hi⟩⟩
  rw [getElem?_unpack X hi, cell_of_lt X hi]

/-- Settles O12: both compositions are the identity, cell by cell. -/
theorem packAndUnpackAreInverse : Obligations.PackAndUnpackAreInverse := by
  refine fun W => ⟨fun seq h => ?_, fun X => ?_⟩
  · rw [pack_of_length_eq h, Option.map_some, unpack_packCells h]
  · rw [pack_of_length_eq (length_unpack X), packCells_unpack]

/-! ### Command sequences -/

/-- What every command of a sequence keeps, the sequence keeps. -/
theorem executeAll_keeps {P : Engine W → Prop} {cws : List (CommandWord W)}
    (hkeeps : ∀ cw ∈ cws, ∀ e, P e → P (executeWord cw e).1) {e : Engine W} (he : P e) :
    P (executeAll cws e).1 := by
  induction cws generalizing e with
  | nil => exact he
  | cons cw rest ih =>
    exact ih (fun c hc => hkeeps c (.tail _ hc)) (hkeeps cw (.head _) e he)

/-! ### `READ_STATE` (R37) -/

/-- A command that is none of `NEW`, `STEP`, `SET_STATE` and `RESET` leaves `STATE` and `CONFIGURED` as they
are. -/
theorem executeWord_of_writesRow_false {cw : CommandWord W} (h : writesRow cw = false)
    (e : Engine W) :
    (executeWord cw e).1.state = e.state ∧ (executeWord cw e).1.configured = e.configured := by
  obtain ⟨hstate, -, -, -, hconfigured⟩ := executeWord_changes cw e
  simp only [writesRow, Bool.or_eq_false_iff, beq_eq_false_iff_ne] at h
  obtain ⟨⟨⟨h₁, h₂⟩, h₆⟩, h₇⟩ := h
  refine ⟨by_contra fun hne => ?_, by_contra fun hne => h₁ (hconfigured hne)⟩
  rcases hstate hne with h | h | h | h
  exacts [h₁ h, h₂ h, h₆ h, h₇ h]

/-- Settles O14: the commands between the reads keep `STATE` and `CONFIGURED`, all that a read depends on. -/
theorem readStateIsPure : Obligations.ReadStateIsPure := by
  refine fun W e he => ⟨by rw [readStateOp_configured he], fun cws hcws => ?_⟩
  obtain ⟨hstate, hconfigured⟩ :
      (executeAll cws e).1.state = e.state ∧ (executeAll cws e).1.configured = true := by
    refine executeAll_keeps (P := fun f => f.state = e.state ∧ f.configured = true)
      (fun cw hcw f hf => ?_) ⟨rfl, he⟩
    obtain ⟨hs, hc⟩ := executeWord_of_writesRow_false (hcws cw hcw) f
    exact ⟨hs.trans hf.1, hc.trans hf.2⟩
  rw [readStateOp_configured he, readStateOp_configured hconfigured, hstate]

/-! ### Configuration writes (R39) -/

/-- Settles O16: the write keeps `CONFIGURED`, so that the `STEP` after it takes its configured effect on the
registers the write left. -/
theorem configurationWriteIsUsedByTheNextStep :
    Obligations.ConfigurationWriteIsUsedByTheNextStep := by
  refine fun W e he => ⟨fun rule => ?_, fun mode => ?_⟩
  · have hstep := stepOp_configured (e := { e with rule := rule }) he
    rw [setRuleOp_configured he]
    exact ⟨rfl, by rw [hstep]⟩
  · have hstep := stepOp_configured (e := { e with mode := mode }) he
    rw [setBoundaryModeOp_configured he]
    exact ⟨rfl, by rw [hstep]⟩

end Sys2Proof.Machine
end

section
/-! PROOFS of the statements about the encoding, spec 30_encoding.md (R50 to R57), and of the reserved
opcode, 60_exceptions.md R111: the fields of the command word, the decoder against the opcode table, the
fields an operation ignores, and the responses of a command sequence. -/

namespace Sys2Proof.Machine

variable {W : Nat}

/-! ### The command word (R50, R51) -/

theorem toNat_modeBit (mode : Mode) : mode.bit.toNat = if mode = .periodic then 1 else 0 := by
  cases mode <;> rfl

/-- Settles O1: the number of an assembled word, and the assembly of a word's own fields. -/
theorem commandWordIsBitsRuleModeOp : Obligations.CommandWordIsBitsRuleModeOp := by
  refine fun W => ⟨fun bits rule mode op => ?_, assembleWord_fields⟩
  rw [toNat_assembleWord, toNat_modeBit]

theorem getLsbD_opField (cw : CommandWord W) {j : Nat} (h : j < 3) :
    (opField cw).getLsbD j = cw.getLsbD j := by
  simp [opField, h]

theorem modeField_eq (cw : CommandWord W) :
    modeField cw = if cw.getLsbD 3 then .periodic else .fixed := by
  unfold modeField
  cases cw.getLsbD 3 <;> rfl

theorem getLsbD_ruleField (cw : CommandWord W) {k : Nat} (h : k < 8) :
    (ruleField cw).getLsbD k = cw.getLsbD (4 + k) := by
  simp [ruleField, h]

theorem getLsbD_bitsField (cw : CommandWord W) {j : Nat} (h : j < W) :
    (bitsField cw).getLsbD j = cw.getLsbD (12 + j) := by
  simp [bitsField, h]

theorem cell_bitsField (cw : CommandWord W) {i : Nat} (h : i < W) :
    cell (bitsField cw) i = cw.getLsbD (W + 11 - i) := by
  have hindex : 12 + (W - 1 - i) = W + 11 - i := by omega
  rw [cell_of_lt _ h, getLsbD_bitsField cw (by omega), hindex]

/-- Settles O2: each field's bits, and the assembled word as the word with given fields. -/
theorem fieldsOfTheCommandWordBitByBit : Obligations.FieldsOfTheCommandWordBitByBit :=
  fun _ cw =>
    ⟨fun _ => getLsbD_opField cw, modeField_eq cw, fun _ => getLsbD_ruleField cw,
      fun _ => getLsbD_bitsField cw, fun _ => cell_bitsField cw,
      fun bits rule mode op =>
        ⟨assembleWord bits rule mode op, bitsField_assembleWord .., ruleField_assembleWord ..,
          modeField_assembleWord .., opField_assembleWord ..⟩⟩

/-! ### Decoding and the opcode table (R52, R55) -/

/-- The decoded instruction has the opcode of the word. -/
theorem opcode_decode (cw : CommandWord Config.W) : (decode cw).opcode = opField cw := by
  have hops : ∀ x : BitVec 3,
      x = 0 ∨ x = 1 ∨ x = 2 ∨ x = 3 ∨ x = 4 ∨ x = 5 ∨ x = 6 ∨ x = 7 := by decide
  rcases hops (opField cw) with h | h | h | h | h | h | h | h
  all_goals simp [decode, Instr.opcode, h]

/-- Masked with 7, a command word is its opcode. -/
theorem toNat_and_seven (cw : CommandWord W) : cw.toNat &&& 7 = (opField cw).toNat := by
  rw [opField, BitVec.extractLsb'_toNat, Nat.shiftRight_zero]
  exact Nat.and_two_pow_sub_one_eq_mod cw.toNat 3

/-- Every mask of the table is 7, so that a row of it matches by the opcode alone. -/
theorem matches_of_mem_opcodeTable {row : OpcodeRow} (h : row ∈ opcodeTable) (cw : CommandWord W) :
    row.Matches cw = decide ((opField cw).toNat = row.pattern) := by
  have hmask : ∀ r ∈ opcodeTable, r.mask = 7 := by decide
  rw [OpcodeRow.Matches, hmask row h, toNat_and_seven]

/-- The one row of the table with an instruction's opcode is the row of that instruction. -/
theorem filter_opcodeTable (i : Instr) :
    opcodeTable.filter (fun row => decide (i.opcode.toNat = row.pattern)) =
      [⟨i.mnemonic, 7, i.opcode.toNat⟩] := by
  cases i <;> rfl

/-- Settles O3: the decoder's arms, and the decoded instruction's row as the only one that matches. -/
theorem decodeFollowsTheOpcodeMap : Obligations.DecodeFollowsTheOpcodeMap := by
  intro cw
  have hrow : opcodeTable.filter (fun row => row.Matches cw) =
      [⟨(decode cw).mnemonic, 7, (opField cw).toNat⟩] := by
    rw [List.filter_congr fun row hmem => matches_of_mem_opcodeTable hmem cw, ← opcode_decode,
      filter_opcodeTable]
  refine ⟨?_, ?_, ?_, ?_, ?_, ?_, ?_, ?_, _, rfl, rfl, rfl, hrow⟩
  all_goals
    intro h
    simp [decode, h]

/-! ### Ignored fields (R53) -/

/-- The decoder examines the opcode and the fields the operation uses, and nothing else of the word. -/
theorem decode_congr {cw cw' : CommandWord Config.W} (hop : opField cw = opField cw')
    (hrule : opField cw = 1 ∨ opField cw = 4 → ruleField cw = ruleField cw')
    (hmode : opField cw = 1 ∨ opField cw = 5 → modeField cw = modeField cw')
    (hbits : opField cw = 1 ∨ opField cw = 6 → bitsField cw = bitsField cw') :
    decode cw = decode cw' := by
  unfold decode
  rw [← hop]
  split
  case h_2 h =>
    have h₁ : opField cw = 1 := BitVec.eq_of_toNat_eq h
    rw [hrule (.inl h₁), hmode (.inl h₁), hbits (.inl h₁)]
  case h_5 h => rw [hrule (.inr (BitVec.eq_of_toNat_eq h))]
  case h_6 h => rw [hmode (.inr (BitVec.eq_of_toNat_eq h))]
  case h_7 h => rw [hbits (.inr (BitVec.eq_of_toNat_eq h))]
  all_goals rfl

theorem ruleField_encode_of_unused {i : Instr} (h : i.opcode ≠ 1 ∧ i.opcode ≠ 4) :
    ruleField (encode i) = 0 := by
  cases i with
  | new => exact absurd rfl h.1
  | setRule => exact absurd rfl h.2
  | _ => exact ruleField_assembleWord ..

theorem modeField_encode_of_unused {i : Instr} (h : i.opcode ≠ 1 ∧ i.opcode ≠ 5) :
    modeField (encode i) = .fixed := by
  cases i with
  | new => exact absurd rfl h.1
  | setBoundaryMode => exact absurd rfl h.2
  | _ => exact modeField_assembleWord ..

theorem bitsField_encode_of_unused {i : Instr} (h : i.opcode ≠ 1 ∧ i.opcode ≠ 6) :
    bitsField (encode i) = 0 := by
  cases i with
  | new => exact absurd rfl h.1
  | setState => exact absurd rfl h.2
  | _ => exact bitsField_assembleWord ..

/-- Settles O4: the decoder's arms read only the fields in use, and the encoder's put zero in the others. -/
theorem ignoredFieldsHaveNoEffect : Obligations.IgnoredFieldsHaveNoEffect :=
  ⟨fun _ _ => decode_congr, fun _ =>
    ⟨ruleField_encode_of_unused, modeField_encode_of_unused, bitsField_encode_of_unused⟩⟩

/-! ### Responses (R57) -/

/-- The responses of a sequence: to the `k`-th command, its response after the `k` commands before it. -/
theorem getElem?_executeAll (cws : List (CommandWord W)) (e : Engine W) (k : Nat) :
    (executeAll cws e).2[k]? =
      cws[k]?.map fun cw => (executeWord cw (executeAll (cws.take k) e).1).2 := by
  induction cws generalizing e k with
  | nil => rfl
  | cons cw rest ih =>
    cases k with
    | zero => rfl
    | succ k => exact ih (executeWord cw e).1 k

theorem length_executeAll (cws : List (CommandWord W)) (e : Engine W) :
    (executeAll cws e).2.length = cws.length := by
  induction cws generalizing e with
  | nil => rfl
  | cons cw rest ih => exact congrArg (· + 1) (ih (executeWord cw e).1)

/-- Only a `READ_STATE` that completes answers with data. -/
theorem executeWord_data_isSome_iff (cw : CommandWord W) (e : Engine W) :
    (executeWord cw e).2.data.isSome = true ↔
      opField cw = 3 ∧ (executeWord cw e).2.status = .ok := by
  rcases executeWord_cases cw e with ⟨-, h⟩ | ⟨-, -, -, h⟩ | ⟨hop, h⟩ |
    ⟨-, ⟨hop, h⟩ | ⟨hop, h⟩ | ⟨hop, h⟩ | ⟨hop, h⟩ | ⟨hop, h⟩ | ⟨hop, h⟩⟩
  · simp [h, raise_eq]
  · simp [h, raise_eq]
  · simp [h, newOp_eq, hop]
  all_goals simp [h, hop]

/-- The status of every response, by the command and `CONFIGURED` (60_exceptions.md R111, R112). -/
theorem executeWord_status (cw : CommandWord W) (e : Engine W) :
    (executeWord cw e).2.status =
      if opField cw = 0 then .fault .reservedOp
      else if opField cw ≠ 1 ∧ e.configured = false then .fault .notConfigured
      else .ok := by
  rcases executeWord_cases cw e with ⟨hop, h⟩ | ⟨h₀, h₁, hc, h⟩ | ⟨hop, h⟩ |
    ⟨hc, ⟨hop, h⟩ | ⟨hop, h⟩ | ⟨hop, h⟩ | ⟨hop, h⟩ | ⟨hop, h⟩ | ⟨hop, h⟩⟩
  · simp [h, hop, raise_eq]
  · rw [if_neg h₀, if_pos ⟨h₁, hc⟩, h]; rfl
  · simp [h, hop, newOp_eq]
  all_goals simp [h, hop, hc]

theorem executeWord_status_reservedOp_iff (cw : CommandWord W) (e : Engine W) :
    (executeWord cw e).2.status = .fault .reservedOp ↔ opField cw = 0 := by
  rw [executeWord_status]
  split_ifs with h₀
  · exact iff_of_true rfl h₀
  · exact iff_of_false nofun h₀
  · exact iff_of_false nofun h₀

theorem executeWord_status_notConfigured_iff (cw : CommandWord W) (e : Engine W) :
    (executeWord cw e).2.status = .fault .notConfigured ↔
      opField cw ≠ 0 ∧ opField cw ≠ 1 ∧ e.configured = false := by
  rw [executeWord_status]
  split_ifs with h₀ h
  · exact iff_of_false nofun fun hcause => hcause.1 h₀
  · exact iff_of_true rfl ⟨h₀, h⟩
  · exact iff_of_false nofun fun hcause => h hcause.2

theorem Status.code_ne_three (st : Status) : st.code ≠ 3 := by
  cases st with
  | ok => decide
  | fault cause => exact cause.code_ne_three

/-- Settles O7: the responses of a sequence by place, and the status and the data of each. -/
theorem oneResponsePerCommandInOrder : Obligations.OneResponsePerCommandInOrder := by
  refine ⟨fun W cws e => ⟨length_executeAll cws e, fun k cw r hcw hr => ?_⟩,
    fun W cw e => ⟨executeWord_status_reservedOp_iff cw e, executeWord_status_notConfigured_iff cw e,
      fun hfault => ?_⟩, rfl, rfl, rfl, Status.code_ne_three⟩
  · rw [getElem?_executeAll, hcw, Option.map_some, Option.some.injEq] at hr
    subst hr
    exact ⟨rfl, executeWord_data_isSome_iff cw _⟩
  · rw [executeWord_of_status_ne_ok hfault]

/-! ### The reserved opcode (R54, 60_exceptions.md R111) -/

theorem decode_eq_reserved_iff (cw : CommandWord Config.W) :
    decode cw = .reserved ↔ opField cw = 0 := by
  constructor
  · intro h
    rw [← opcode_decode, h, Instr.opcode]
  · intro h
    simp [decode, h]

/-- Settles O43: `op = 0` and no other decodes to the reserved opcode, whose operation is the fault. -/
theorem reservedOpcodeRaisesReservedOp : Obligations.ReservedOpcodeRaisesReservedOp := by
  refine ⟨fun cw => (decode_eq_reserved_iff cw).symm, fun s => ?_, rfl⟩
  rw [exec_eq_perform, perform_eq]
  rfl

end Sys2Proof.Machine
end

section
/-! PROOFS of the statements about `NEW`, spec 40_new.md (R70 to R72): its effect on every engine, its
sequence form through the operand checks of a request, and the read of the row it loaded. -/

namespace Sys2Proof.Machine

variable {W : Nat}

/-! ### Effect, frame and encoding (R70) -/

/-- `NEW` on every machine: the registers it loads, the one response, and nothing else. -/
theorem exec_new (rule : RuleTable) (mode : Mode) (bits : Row Config.W) (s : State) :
    exec (.new rule mode bits) s =
      .next { s with
        engine := { s.engine with
          state := bits, initState := bits, rule := rule, mode := mode, configured := true },
        responses := s.responses ++ [⟨.ok, none⟩] } := by
  rw [exec_eq_perform, instrOp, perform_eq, newOp_eq]

theorem decode_of_op_one {cw : CommandWord Config.W} (h : opField cw = 1) :
    decode cw = .new (ruleField cw) (modeField cw) (bitsField cw) := by
  simp [decode, h]

theorem toNat_encode_new (rule : RuleTable) (mode : Mode) (bits : Row Config.W) :
    (encode (.new rule mode bits)).toNat =
      bits.toNat * 4096 + rule.toNat * 16 + (if mode = .periodic then 1 else 0) * 8 + 1 := by
  rw [encode, toNat_assembleWord, toNat_modeBit]
  rfl

/-- Settles O17: the run of `newOp`, the number of the assembled word, and the decoder's arm. -/
theorem newConfiguresTheEngine : Obligations.NewConfiguresTheEngine :=
  ⟨exec_new, toNat_encode_new, fun _ => decode_of_op_one⟩

/-! ### The sequence form of the operand (R71) -/

theorem ruleOperand_of_lt {rule : Nat} (h : rule < 256) :
    ruleOperand rule = some (BitVec.ofNat 8 rule) := by
  simp [ruleOperand, ruleInRange, h]

theorem modeOperand_of_lt {mode : Nat} (h : mode < 2) :
    modeOperand mode = some (if mode = 1 then .periodic else .fixed) := by
  interval_cases mode <;> rfl

theorem rowOperand_of_bits {cells : List Nat} (h : ∀ c ∈ cells, c < 2) :
    rowOperand W cells = pack W (cells.map cellOfNat) := by
  have hbits : cellsAreBits cells = true :=
    List.all_eq_true.mpr fun c hc => decide_eq_true (h c hc)
  rw [rowOperand, if_pos hbits]

/-- With the other operands in range, `NEW` of a sequence is `NEW` of the packed sequence, and has a word
exactly when `pack` has a value. -/
theorem toWord_new {rule mode : Nat} {cells : List Nat} (hrule : rule < 256) (hmode : mode < 2)
    (hcells : ∀ c ∈ cells, c < 2) :
    (Request.new rule mode cells).toWord W =
      (pack W (cells.map cellOfNat)).map fun bits =>
        assembleWord bits (BitVec.ofNat 8 rule) (if mode = 1 then .periodic else .fixed) 1 := by
  rw [Request.toWord, ruleOperand_of_lt hrule, modeOperand_of_lt hmode, rowOperand_of_bits hcells]
  cases pack W (cells.map cellOfNat) <;> rfl

theorem decode_assembleWord_new (rule : RuleTable) (mode : Mode) (bits : Row Config.W) :
    decode (assembleWord bits rule mode 1) = .new rule mode bits := by
  rw [decode_of_op_one (opField_assembleWord ..), ruleField_assembleWord, modeField_assembleWord,
    bitsField_assembleWord]

theorem toNat_cellOfNat {c : Nat} (h : c < 2) : (cellOfNat c).toNat = c := by
  interval_cases c <;> rfl

/-- A 0/1 sequence of length `W` packs to the row whose cells are its elements, the first element being
cell 0. -/
theorem exists_pack_cellOfNat {cells : List Nat} (hcells : ∀ c ∈ cells, c < 2)
    (hlen : cells.length = W) :
    ∃ bits : Row W, pack W (cells.map cellOfNat) = some bits ∧
      ∀ i < W, some (cell bits i).toNat = cells[i]? := by
  have hmap : (cells.map cellOfNat).length = W := by rwa [List.length_map]
  refine ⟨packCells W (cells.map cellOfNat), pack_of_length_eq hmap, fun i hi => ?_⟩
  have hi' : i < cells.length := hlen ▸ hi
  rw [cell_packCells hmap hi, List.getElem_map, toNat_cellOfNat (hcells _ (List.getElem_mem hi')),
    List.getElem?_eq_getElem hi']

/-- Settles O18: the request's word is that of `NEW` with the packed sequence, whose cells are the
elements; `pack` has no value for another length. -/
theorem newFromASequence : Obligations.NewFromASequence := by
  intro rule mode cells s hrule hmode hcells
  rw [toWord_new hrule hmode hcells]
  refine ⟨fun hlen => ?_, fun hlen => ?_⟩
  · obtain ⟨bits, hpack, hcell⟩ := exists_pack_cellOfNat hcells hlen
    have hdecode := decode_assembleWord_new (BitVec.ofNat 8 rule)
      (if mode = 1 then .periodic else .fixed) bits
    have hexec := exec_new (BitVec.ofNat 8 rule) (if mode = 1 then .periodic else .fixed) bits s
    rw [← hdecode] at hexec
    rw [hpack, Option.map_some]
    exact ⟨_, bits, _, rfl, hpack, hdecode, hexec, fun i hi => ⟨hcell i hi, hcell i hi⟩⟩
  · rw [pack_of_length_ne (by rwa [List.length_map]), Option.map_none]

/-! ### `NEW`, then `READ_STATE` (R72) -/

theorem executeWord_of_readState {cw : CommandWord W} (h : opField cw = 3) :
    executeWord cw = readStateOp := by
  simp [executeWord, h]

theorem executeWord_assembleWord_new (rule : RuleTable) (mode : Mode) (bits : Row W) :
    executeWord (assembleWord bits rule mode 1) = newOp rule mode bits := by
  rw [executeWord_of_new (opField_assembleWord ..), ruleField_assembleWord, modeField_assembleWord,
    bitsField_assembleWord]

/-- Settles O19: `NEW` leaves the engine configured with the row in `STATE`, and the read answers it. -/
theorem newThenReadReturnsTheRow : Obligations.NewThenReadReturnsTheRow := by
  intro W rule mode bits e
  have hread : executeWord (assembleWord (0 : Row W) 0 .fixed 3) = readStateOp :=
    executeWord_of_readState (opField_assembleWord ..)
  simp only [executeAll, executeWord_assembleWord_new, hread, newOp_eq]
  rw [readStateOp_configured rfl]

end Sys2Proof.Machine
end

section
/-! PROOFS of the statements about `STEP`, spec 41_step.md (R75 to R89): the neighbourhood with its edge
clauses, the neighbour planes and the bit-parallel update, the rows whose neighbourhoods are known
(constant rules, constant rows, narrow rows), locality, and sequences of steps. -/

namespace Sys2Proof.Machine

variable {W : Nat}

/-! ### The neighbourhood (R75 to R79) -/

@[simp] theorem leftOf_fixed_zero (X : Row W) : leftOf .fixed X 0 = false := rfl

@[simp] theorem leftOf_periodic_zero (X : Row W) : leftOf .periodic X 0 = cell X (W - 1) := rfl

theorem leftOf_of_pos (mode : Mode) (X : Row W) {i : Nat} (h : 1 ≤ i) :
    leftOf mode X i = cell X (i - 1) := if_neg (by omega)

@[simp] theorem rightOf_fixed_last (X : Row W) : rightOf .fixed X (W - 1) = false := if_pos rfl

@[simp] theorem rightOf_periodic_last (X : Row W) : rightOf .periodic X (W - 1) = cell X 0 :=
  if_pos rfl

theorem rightOf_of_lt (mode : Mode) (X : Row W) {i : Nat} (h : i + 2 ≤ W) :
    rightOf mode X i = cell X (i + 1) := if_neg (by omega)

/-- Settles O20: the clauses in cell numbering, and each read as a bit through `getLsbD_eq_cell`. -/
theorem neighbourhoodExtractor : Obligations.NeighbourhoodExtractor := by
  refine fun W X mode => ⟨fun i hi => ⟨rfl, cell_of_lt X hi⟩, fun i _ h => leftOf_of_pos mode X h,
    fun _ => ⟨leftOf_fixed_zero X, leftOf_periodic_zero X⟩, fun i h => rightOf_of_lt mode X h,
    fun _ => ⟨rightOf_fixed_last X, rightOf_periodic_last X⟩, fun j h => ?_, fun h => ?_,
    fun j hj h => ?_, fun h => ?_⟩
  · rw [leftOf_of_pos mode X (by omega), getLsbD_eq_cell X (by omega), Nat.sub_sub]
  · rw [leftOf_periodic_zero, getLsbD_eq_cell X h, Nat.sub_zero]
  · rw [rightOf_of_lt mode X (by omega), getLsbD_eq_cell X (by omega)]
    congr 1
    omega
  · rw [rightOf_periodic_last, getLsbD_eq_cell X (by omega), Nat.sub_self]

/-- Settles O21: the index is bounded, and the packed row's cells are the rule's entries. -/
theorem nextRowIsTheRuleLookupOfEveryCell : Obligations.NextRowIsTheRuleLookupOfEveryCell :=
  fun _ rule mode X i hi => ⟨rfl, neighbourhoodIndex_lt mode X i, cell_nextRow rule mode X hi⟩

/-! ### The all-zeros and the all-ones row -/

@[simp] theorem cell_zero (i : Nat) : cell (0#W) i = false := by simp [cell]

theorem cell_allOnes {i : Nat} (h : i < W) : cell (BitVec.allOnes W) i = true := by
  rw [cell_of_lt _ h, BitVec.getLsbD_allOnes]
  exact decide_eq_true (by omega)

theorem neighbourhoodIndex_zero (mode : Mode) (i : Nat) :
    neighbourhoodIndex mode (0 : Row W) i = 0 := by
  cases mode <;> simp [neighbourhoodIndex, leftOf, selfOf, rightOf]

theorem neighbourhoodIndex_allOnes_periodic {i : Nat} (h : i < W) :
    neighbourhoodIndex .periodic (BitVec.allOnes W) i = 7 := by
  have hleft : leftOf .periodic (BitVec.allOnes W) i = true := by
    rcases Nat.eq_zero_or_pos i with rfl | hpos
    · rw [leftOf_periodic_zero, cell_allOnes (by omega)]
    · rw [leftOf_of_pos _ _ hpos, cell_allOnes (by omega)]
  have hright : rightOf .periodic (BitVec.allOnes W) i = true := by
    by_cases hlast : i = W - 1
    · rw [hlast, rightOf_periodic_last, cell_allOnes (by omega)]
    · rw [rightOf_of_lt _ _ (by omega), cell_allOnes (by omega)]
  rw [neighbourhoodIndex, selfOf, hleft, cell_allOnes h, hright]
  rfl

/-- Under FIXED the all-ones row sees a zero beyond each of its two edge cells. -/
theorem neighbourhoodIndex_allOnes_fixed {i : Nat} (hW : 2 ≤ W) (h : i < W) :
    neighbourhoodIndex .fixed (BitVec.allOnes W) i = if i = 0 then 3 else if i = W - 1 then 6 else 7 := by
  rw [neighbourhoodIndex, selfOf, cell_allOnes h]
  split
  · next hi => rw [hi, leftOf_fixed_zero, rightOf_of_lt _ _ (by omega), cell_allOnes (by omega)]; rfl
  · next hi =>
    rw [leftOf_of_pos _ _ (by omega), cell_allOnes (by omega)]
    split
    · next hlast => rw [hlast, rightOf_fixed_last]; rfl
    · next hlast => rw [rightOf_of_lt _ _ (by omega), cell_allOnes (by omega)]; rfl

/-! ### `STEP` on the machine (R81) -/

theorem exec_step_of_configured {s : State} (h : s.engine.configured = true) :
    exec .step s =
      .next { s with
        engine := { s.engine with state := nextRow s.engine.rule s.engine.mode s.engine.state },
        responses := s.responses ++ [⟨.ok, none⟩] } := by
  rw [exec_eq_perform, perform_eq, instrOp, stepOp_configured h]

/-- On an unconfigured machine every operation but `NEW` records `NotConfigured` in `FAULT`, if that is
still 0, answers it to the host, and changes nothing else (60_exceptions.md R112, R114). -/
theorem exec_of_unconfigured {i : Instr} {s : State} (h : s.engine.configured = false)
    (h₁ : i.opcode ≠ 1) (h₀ : i.opcode ≠ 0) :
    exec i s =
      .next { s with
        engine := { s.engine with fault := if s.engine.fault = 0 then 2 else s.engine.fault },
        responses := s.responses ++ [⟨.fault .notConfigured, none⟩] } := by
  rw [exec_eq_perform, perform_eq, instrOp_of_unconfigured h h₁ h₀]
  rfl

theorem decode_of_op_two {cw : CommandWord Config.W} (h : opField cw = 2) : decode cw = .step := by
  simp [decode, h]

/-- Settles O22: the run of `stepOp` with its row read cell by cell, the fault, the word, and the
neighbourhood indices of the two constant rows. -/
theorem stepAdvancesOneGeneration : Obligations.StepAdvancesOneGeneration := by
  refine ⟨fun s h => ⟨_, fun i hi => cell_nextRow _ _ _ hi, exec_step_of_configured h⟩,
    fun s h => exec_of_unconfigured h (by decide) (by decide), fun _ => decode_of_op_two, rfl,
    fun W rule mode i hi => ⟨?_, ?_, fun hW => ?_⟩⟩
  · rw [cell_nextRow _ _ _ hi, newCell, neighbourhoodIndex_zero]
  · rw [cell_nextRow _ _ _ hi, newCell, neighbourhoodIndex_allOnes_periodic hi]
  · rw [cell_nextRow _ _ _ hi, newCell, neighbourhoodIndex_allOnes_fixed hW hi]

/-! ### The neighbour planes (R82) -/

theorem planes_width_one (S : Row 1) :
    leftPlane .fixed S = 0 ∧ rightPlane .fixed S = 0 ∧
      leftPlane .periodic S = S ∧ rightPlane .periodic S = S := by
  revert S
  decide

theorem leftPlane_fixed (S : Row W) : leftPlane .fixed S = S >>> 1 := by
  simp [leftPlane, wrapBit]

theorem rightPlane_fixed (S : Row W) : rightPlane .fixed S = S <<< 1 := by
  simp [rightPlane, wrapBit]

theorem leftPlane_periodic (S : Row W) : leftPlane .periodic S = S.rotateRight 1 := by
  refine BitVec.eq_of_getLsbD_eq fun j hj => ?_
  rw [getLsbD_leftPlane_bit _ S hj, BitVec.getLsbD_rotateRight]
  rcases Nat.lt_or_ge 1 W with hW | hW
  · rw [Nat.mod_eq_of_lt hW]
    split
    · next hlast => simp [hlast, show 0 < W by omega]
    · next hlast => simp [show j < W - 1 by omega, Nat.add_comm]
  · obtain rfl : W = 1 := by omega
    obtain rfl : j = 0 := by omega
    simp

theorem rightPlane_periodic (S : Row W) : rightPlane .periodic S = S.rotateLeft 1 := by
  refine BitVec.eq_of_getLsbD_eq fun j hj => ?_
  rw [getLsbD_rightPlane_bit _ S hj, BitVec.getLsbD_rotateLeft]
  rcases Nat.lt_or_ge 1 W with hW | hW
  · rw [Nat.mod_eq_of_lt hW]
    split
    · next hfirst => simp [hfirst]
    · next hfirst => simp [hfirst, hj]
  · obtain rfl : W = 1 := by omega
    obtain rfl : j = 0 := by omega
    simp

/-- Settles O23: the planes bit by bit are the neighbours, and row by row the rotations and the shifts. -/
theorem neighbourPlanesHoldTheNeighbours : Obligations.NeighbourPlanesHoldTheNeighbours := by
  refine fun W S => ⟨fun mode i hi => ⟨getLsbD_leftPlane mode S hi, getLsbD_rightPlane mode S hi⟩,
    fun _ => ⟨leftPlane_periodic S, rightPlane_periodic S⟩, leftPlane_fixed S, rightPlane_fixed S,
    fun hW => ?_⟩
  subst hW
  exact planes_width_one S

/-! ### The bit-parallel update (R83) -/

/-- The neighbourhood index of the cell held in bit `j`, read from the planes. -/
def planeIndex (mode : Mode) (S : Row W) (j : Nat) : Nat :=
  ((leftPlane mode S).getLsbD j).toNat * 4 + (S.getLsbD j).toNat * 2 +
    ((rightPlane mode S).getLsbD j).toNat

theorem planeIndex_eq_neighbourhoodIndex (mode : Mode) (S : Row W) {i : Nat} (h : i < W) :
    planeIndex mode S (W - 1 - i) = neighbourhoodIndex mode S i := by
  rw [planeIndex, neighbourhoodIndex, selfOf, cell_of_lt S h, getLsbD_leftPlane mode S h,
    getLsbD_rightPlane mode S h]

theorem planeIndex_lt (mode : Mode) (S : Row W) (j : Nat) : planeIndex mode S j < 8 := by
  have hleft := Bool.toNat_le ((leftPlane mode S).getLsbD j)
  have hself := Bool.toNat_le (S.getLsbD j)
  have hright := Bool.toNat_le ((rightPlane mode S).getLsbD j)
  rw [planeIndex]
  omega

theorem getLsbD_sel (X : Row W) (b : Bool) {j : Nat} (h : j < W) :
    (sel X b).getLsbD j = (X.getLsbD j == b) := by
  cases b <;> simp [sel, h]

/-- An index of three bits is `k` exactly if each of its bits is that of `k`. -/
theorem bits_beq_eq_decide_index :
    ∀ l s r : Bool, ∀ k < 8,
      (l == k.testBit 2 && s == k.testBit 1 && r == k.testBit 0) =
        decide (k = l.toNat * 4 + s.toNat * 2 + r.toNat) := by decide

/-- Mask `k` holds exactly the bits whose neighbourhood index is `k`. -/
theorem getLsbD_neighbourhoodMask (mode : Mode) (S : Row W) {j k : Nat} (hj : j < W) (hk : k < 8) :
    (neighbourhoodMask mode S k).getLsbD j = decide (k = planeIndex mode S j) := by
  rw [neighbourhoodMask, BitVec.getLsbD_and, BitVec.getLsbD_and, getLsbD_sel _ _ hj,
    getLsbD_sel _ _ hj, getLsbD_sel _ _ hj]
  exact bits_beq_eq_decide_index _ _ _ k hk

theorem getLsbD_foldl_or {α : Type} (f : α → Row W) (l : List α) (acc : Row W) (j : Nat) :
    (l.foldl (fun acc a => acc ||| f a) acc).getLsbD j =
      (acc.getLsbD j || l.any fun a => (f a).getLsbD j) := by
  induction l generalizing acc with
  | nil => simp
  | cons a rest ih => rw [List.foldl_cons, ih, BitVec.getLsbD_or, List.any_cons, Bool.or_assoc]

theorem getLsbD_nextRowBitParallel_eq_any (rule : RuleTable) (mode : Mode) (S : Row W) (j : Nat) :
    (nextRowBitParallel rule mode S).getLsbD j =
      (List.range 8).any fun k => rule.getLsbD k && (neighbourhoodMask mode S k).getLsbD j := by
  have hterm (k : Nat) :
      (if rule.getLsbD k then neighbourhoodMask mode S k else 0).getLsbD j =
        (rule.getLsbD k && (neighbourhoodMask mode S k).getLsbD j) := by
    cases rule.getLsbD k with
    | false => exact BitVec.getLsbD_zero
    | true => rfl
  have hacc : (0 : Row W).getLsbD j = false := BitVec.getLsbD_zero
  simp only [nextRowBitParallel, getLsbD_foldl_or, hterm, hacc, Bool.false_or]

/-- Bit `j` lies in the one mask of its index, and the OR takes that mask if the rule's entry is 1. -/
theorem getLsbD_nextRowBitParallel (rule : RuleTable) (mode : Mode) (S : Row W) {j : Nat} (h : j < W) :
    (nextRowBitParallel rule mode S).getLsbD j = rule.getLsbD (planeIndex mode S j) := by
  have hlt := planeIndex_lt mode S j
  rw [getLsbD_nextRowBitParallel_eq_any, Bool.eq_iff_iff]
  simp only [List.any_eq_true, List.mem_range, Bool.and_eq_true]
  constructor
  · rintro ⟨k, hk, hentry, hmask⟩
    rw [getLsbD_neighbourhoodMask mode S h hk, decide_eq_true_eq] at hmask
    exact hmask ▸ hentry
  · intro hentry
    exact ⟨_, hlt, hentry, (getLsbD_neighbourhoodMask mode S h hlt).trans (decide_eq_true rfl)⟩

theorem nextRowBitParallel_eq_nextRow (rule : RuleTable) (mode : Mode) (S : Row W) :
    nextRowBitParallel rule mode S = nextRow rule mode S := by
  refine row_ext fun i hi => ?_
  rw [cell_of_lt _ hi, getLsbD_nextRowBitParallel _ _ _ (by omega),
    planeIndex_eq_neighbourhoodIndex mode S hi, cell_nextRow _ _ _ hi, newCell]

/-- Settles O24: both updates look up the same index, and a bit's one mask is that of its index. -/
theorem bitParallelUpdateEqualsThePerCellUpdate :
    Obligations.BitParallelUpdateEqualsThePerCellUpdate := by
  refine fun W rule mode S => ⟨nextRowBitParallel_eq_nextRow rule mode S, ?_, fun j hj =>
    ⟨getLsbD_nextRowBitParallel rule mode S hj, planeIndex mode S j, planeIndex_lt mode S j,
      fun k hk => getLsbD_neighbourhoodMask mode S hj hk⟩⟩
  refine BitVec.eq_of_getLsbD_eq fun j hj => ?_
  rw [getLsbD_nextRowBitParallel _ _ _ hj]
  simp

/-! ### Constant rules (R84) -/

theorem nextRow_rule_zero (mode : Mode) (X : Row W) : nextRow 0 mode X = 0 := by
  refine row_ext fun i hi => ?_
  rw [cell_nextRow _ _ _ hi, newCell]
  exact BitVec.getLsbD_zero.trans (cell_zero i).symm

theorem nextRow_rule_255 (mode : Mode) (X : Row W) : nextRow 255 mode X = BitVec.allOnes W := by
  have hrule : (255 : RuleTable) = BitVec.allOnes 8 := rfl
  refine row_ext fun i hi => ?_
  rw [cell_nextRow _ _ _ hi, cell_allOnes hi, newCell, hrule, BitVec.getLsbD_allOnes]
  exact decide_eq_true (neighbourhoodIndex_lt mode X i)

/-- Settles O25: every entry of rule 0 is 0 and every entry of rule 255 is 1. -/
theorem constantRules : Obligations.ConstantRules := by
  intro W e he
  rw [stepOp_configured he]
  refine ⟨fun hrule => ?_, fun hrule => ?_⟩
  · rw [hrule]
    exact nextRow_rule_zero e.mode e.state
  · rw [hrule]
    have hones := nextRow_rule_255 e.mode e.state
    exact ⟨hones, by rw [hones, BitVec.toNat_allOnes]⟩

/-! ### The all-ones row under rules 30 and 128 (R85) -/

/-- A row is the number whose binary digits are its cells. -/
theorem toNat_eq_of_cell {X : Row W} {n : Nat} (hn : n < 2 ^ W)
    (h : ∀ i < W, cell X i = n.testBit (W - 1 - i)) : X.toNat = n := by
  have hX : X = BitVec.ofNat W n := row_ext fun i hi => by
    rw [h i hi, cell_of_lt _ hi, BitVec.getLsbD_ofNat, decide_eq_true (by omega), Bool.true_and]
  rw [hX, BitVec.toNat_ofNat, Nat.mod_eq_of_lt hn]

theorem cell_nextRow_30_allOnes {i : Nat} (hW : 2 ≤ W) (h : i < W) :
    cell (nextRow 30 .fixed (BitVec.allOnes W)) i = decide (i = 0) := by
  rw [cell_nextRow _ _ _ h, newCell, neighbourhoodIndex_allOnes_fixed hW h]
  split
  · next hi => rw [hi]; rfl
  · next hi => rw [decide_eq_false hi]; split <;> rfl

theorem cell_nextRow_128_allOnes {i : Nat} (hW : 2 ≤ W) (h : i < W) :
    cell (nextRow 128 .fixed (BitVec.allOnes W)) i = (decide (i ≠ 0) && decide (i ≠ W - 1)) := by
  rw [cell_nextRow _ _ _ h, newCell, neighbourhoodIndex_allOnes_fixed hW h]
  split
  · next hi => rw [hi]; rfl
  · next hi =>
    rw [decide_eq_true hi, Bool.true_and]
    split
    · next hlast => rw [decide_eq_false (not_not_intro hlast)]; rfl
    · next hlast => rw [decide_eq_true hlast]; rfl

theorem nextRow_128_periodic_allOnes :
    nextRow 128 .periodic (BitVec.allOnes W) = BitVec.allOnes W := by
  refine row_ext fun i hi => ?_
  rw [cell_nextRow _ _ _ hi, newCell, neighbourhoodIndex_allOnes_periodic hi, cell_allOnes hi]
  rfl

theorem toNat_nextRow_30_allOnes (hW : 2 ≤ W) :
    (nextRow 30 .fixed (BitVec.allOnes W)).toNat = 2 ^ (W - 1) := by
  refine toNat_eq_of_cell (Nat.pow_lt_pow_right (by omega) (by omega)) fun i hi => ?_
  rw [cell_nextRow_30_allOnes hW hi, Nat.testBit_two_pow, decide_eq_decide]
  omega

theorem toNat_nextRow_128_allOnes (hW : 2 ≤ W) :
    (nextRow 128 .fixed (BitVec.allOnes W)).toNat = 2 ^ (W - 1) - 2 := by
  have hlt : 2 ^ (W - 1) < 2 ^ W := Nat.pow_lt_pow_right (by omega) (by omega)
  have hone : 1 < 2 ^ (W - 1) := Nat.one_lt_two_pow (by omega)
  refine toNat_eq_of_cell (by omega) fun i hi => ?_
  rw [cell_nextRow_128_allOnes hW hi, Nat.testBit_two_pow_sub_succ hone, Bool.eq_iff_iff]
  simp only [Bool.and_eq_true, decide_eq_true_eq, Bool.not_eq_true', ← Bool.not_eq_true,
    Nat.testBit_one_eq_true_iff_self_eq_zero]
  omega

/-- Settles O26: the cells follow from the indices 3, 6 and 7 of the all-ones row, the numbers from the
cells. -/
theorem edgesOfTheAllOnesRow : Obligations.EdgesOfTheAllOnesRow := by
  intro W X hW hX
  obtain rfl : X = BitVec.allOnes W := BitVec.eq_of_toNat_eq (by rw [hX, BitVec.toNat_allOnes])
  exact ⟨toNat_nextRow_30_allOnes hW, fun i hi => cell_nextRow_30_allOnes hW hi,
    by rw [nextRow_128_periodic_allOnes, hX], toNat_nextRow_128_allOnes hW,
    fun i hi => cell_nextRow_128_allOnes hW hi⟩

/-! ### Rows of one and of two cells (R86) -/

theorem cell_width_one (X : Row 1) : cell X 0 = decide (X = 1) := by
  revert X
  decide

/-- The one cell of a row of width 1 is both the first and the last. -/
theorem neighbourhoodIndex_width_one (X : Row 1) :
    neighbourhoodIndex .fixed X 0 = (cell X 0).toNat * 2 ∧
    neighbourhoodIndex .periodic X 0 = (cell X 0).toNat * 7 := by
  constructor
  · simp [neighbourhoodIndex, leftOf, selfOf, rightOf]
  · simp only [neighbourhoodIndex, leftOf, selfOf, rightOf, if_true, Nat.sub_self]
    omega

/-- Settles O27: the indices of the one cell, and of the two that are each other's neighbours. -/
theorem narrowRows : Obligations.NarrowRows := by
  refine ⟨fun rule X => ?_, fun rule X c0 c1 h0 h1 => ?_, by decide⟩
  · obtain ⟨hfixed, hperiodic⟩ := neighbourhoodIndex_width_one X
    rw [cell_nextRow _ _ _ Nat.one_pos, cell_nextRow _ _ _ Nat.one_pos, newCell, newCell, hfixed,
      hperiodic, cell_width_one]
    split
    · next hX => rw [decide_eq_true hX]; exact ⟨rfl, rfl⟩
    · next hX => rw [decide_eq_false hX]; exact ⟨rfl, rfl⟩
  · subst h0 h1
    simp [cell_nextRow, newCell, neighbourhoodIndex, leftOf, selfOf, rightOf]

/-! ### Locality (R87) -/

theorem leftOf_congr {X Y : Row W} (mode : Mode) {i : Nat} (hi : i < W)
    (h : cell Y ((i + W - 1) % W) = cell X ((i + W - 1) % W)) : leftOf mode Y i = leftOf mode X i := by
  rcases Nat.eq_zero_or_pos i with rfl | hpos
  · rw [Nat.zero_add, Nat.mod_eq_of_lt (by omega)] at h
    cases mode with
    | fixed => rfl
    | periodic => exact h
  · rw [show i + W - 1 = i - 1 + W by omega, Nat.add_mod_right, Nat.mod_eq_of_lt (by omega)] at h
    rw [leftOf_of_pos _ _ hpos, leftOf_of_pos _ _ hpos, h]

theorem rightOf_congr {X Y : Row W} (mode : Mode) {i : Nat} (hi : i < W)
    (h : cell Y ((i + 1) % W) = cell X ((i + 1) % W)) : rightOf mode Y i = rightOf mode X i := by
  by_cases hlast : i = W - 1
  · subst hlast
    rw [Nat.sub_add_cancel (by omega), Nat.mod_self] at h
    cases mode with
    | fixed => rw [rightOf_fixed_last, rightOf_fixed_last]
    | periodic => rw [rightOf_periodic_last, rightOf_periodic_last, h]
  · rw [Nat.mod_eq_of_lt (by omega)] at h
    rw [rightOf_of_lt _ _ (by omega), rightOf_of_lt _ _ (by omega), h]

theorem leftOf_fixed_eq_periodic {X : Row W} (h : cell X (W - 1) = false) (i : Nat) :
    leftOf .fixed X i = leftOf .periodic X i := by
  simp [leftOf, h]

theorem rightOf_fixed_eq_periodic {X : Row W} (h : cell X 0 = false) (i : Nat) :
    rightOf .fixed X i = rightOf .periodic X i := by
  simp [rightOf, h]

/-- Settles O28: the index is read from the three cells, the mode only beyond the edges, and a zero cell
wrapped round is the virtual zero. -/
theorem stepIsLocal : Obligations.StepIsLocal := by
  refine fun W rule X => ⟨fun mode i hi Y hleft hself hright => ?_, fun i h₁ h₂ => ?_,
    fun hfirst hlast => row_ext fun i hi => ?_⟩
  · rw [cell_nextRow _ _ _ hi, cell_nextRow _ _ _ hi, newCell, newCell, neighbourhoodIndex,
      neighbourhoodIndex, selfOf, selfOf, leftOf_congr mode hi hleft, hself,
      rightOf_congr mode hi hright]
  · rw [cell_nextRow _ _ _ (by omega), cell_nextRow _ _ _ (by omega)]
    exact newCell_interior rule .fixed .periodic X h₁ h₂
  · rw [cell_nextRow _ _ _ hi, cell_nextRow _ _ _ hi, newCell, newCell, neighbourhoodIndex,
      neighbourhoodIndex, leftOf_fixed_eq_periodic hlast, rightOf_fixed_eq_periodic hfirst]

/-! ### The update is synchronous (R88) -/

/-- Settles O29: the four rows of the two pairs, evaluated. -/
theorem synchronousUpdateIsNotInPlace : Obligations.SynchronousUpdateIsNotInPlace := by
  unfold Obligations.SynchronousUpdateIsNotInPlace
  decide +kernel

/-! ### Sequences of steps (R89) -/

theorem executeWord_of_step {cw : CommandWord W} (h : opField cw = 2) : executeWord cw = stepOp := by
  simp [executeWord, h]

theorem executeAll_replicate_step {cw : CommandWord W} (hcw : opField cw = 2) (n : Nat) {e : Engine W}
    (he : e.configured = true) :
    (executeAll (List.replicate n cw) e).1 =
      { e with state := (nextRow e.rule e.mode)^[n] e.state } := by
  induction n generalizing e with
  | zero => rfl
  | succ n ih =>
    calc (executeAll (List.replicate (n + 1) cw) e).1
        = (executeAll (List.replicate n cw) { e with state := nextRow e.rule e.mode e.state }).1 := by
          rw [List.replicate_succ, executeAll, executeWord_of_step hcw, stepOp_configured he]
      _ = { e with state := (nextRow e.rule e.mode)^[n + 1] e.state } := ih he

/-- Settles O30: the configured effect of `STEP` names `STATE`, `RULE` and `MODE` only; by induction on the
number of steps. -/
theorem stepsIterateTheRowMap : Obligations.StepsIterateTheRowMap := by
  refine fun W e he => ⟨fun row => ?_, ?_, fun n cw hcw => executeAll_replicate_step hcw n he⟩
  · have hstep := stepOp_configured (e := { e with initState := row }) he
    rw [hstep, stepOp_configured he]
  · rw [stepOp_configured he]

end Sys2Proof.Machine
end

section
/-! PROOFS of the statement about `READ_STATE`, spec 42_read_state.md (R90): its response and frame, the
sequence form of its data, its fault, and its encoding. -/

namespace Sys2Proof.Machine

/-- `READ_STATE` on a configured machine: every register as it was, and one response, which carries
`STATE`. -/
theorem exec_readState_of_configured {s : State} (h : s.engine.configured = true) :
    exec .readState s =
      .next { s with responses := s.responses ++ [⟨.ok, some s.engine.state⟩] } := by
  rw [exec_eq_perform, perform_eq, instrOp, readStateOp_configured h]

theorem decode_of_op_three {cw : CommandWord Config.W} (h : opField cw = 3) :
    decode cw = .readState := by
  simp [decode, h]

/-- Settles O31: the run of `readStateOp`, the fault of an unconfigured machine, the cells of a row as a
sequence, and the word. -/
theorem readStateReturnsTheRow : Obligations.ReadStateReturnsTheRow := by
  refine ⟨fun s h => exec_readState_of_configured h,
    fun s h => exec_of_unconfigured h (by decide) (by decide), fun X => ?_,
    fun _ => decode_of_op_three, rfl⟩
  obtain ⟨hlength, helement⟩ := unpackIsMostSignificantFirst Config.W X
  exact ⟨hlength, fun i hi => (helement i hi).1⟩

end Sys2Proof.Machine
end

section
/-! PROOFS of the statements about `SET_RULE` and `SET_BOUNDARY_MODE`, spec
43_set_rule_set_boundary_mode.md (R92 to R95): the one register each writes, the fault, the encoding, and
that neither is seen by the reads around it. -/

namespace Sys2Proof.Machine

variable {W : Nat}

/-! ### `SET_RULE` (R92) -/

theorem exec_setRule_of_configured (rule : RuleTable) {s : State} (h : s.engine.configured = true) :
    exec (.setRule rule) s =
      .next { s with
        engine := { s.engine with rule := rule }, responses := s.responses ++ [⟨.ok, none⟩] } := by
  rw [exec_eq_perform, perform_eq, instrOp, setRuleOp_configured h]

theorem decode_of_op_four {cw : CommandWord Config.W} (h : opField cw = 4) :
    decode cw = .setRule (ruleField cw) := by
  simp [decode, h]

theorem toNat_encode_setRule (rule : RuleTable) :
    (encode (.setRule rule)).toNat = rule.toNat * 16 + 4 := by
  rw [encode, toNat_assembleWord]
  simp [Mode.bit]

/-- Settles O32: the run of `setRuleOp`, the fault of an unconfigured machine, the decoder's arm, and the
number of the assembled word. -/
theorem setRuleWritesTheRuleOnly : Obligations.SetRuleWritesTheRuleOnly :=
  ⟨fun rule _ h => exec_setRule_of_configured rule h,
    fun _ _ h => exec_of_unconfigured h (by simp [Instr.opcode]) (by simp [Instr.opcode]),
    fun _ => decode_of_op_four, toNat_encode_setRule⟩

/-! ### `SET_BOUNDARY_MODE` (R94) -/

theorem exec_setBoundaryMode_of_configured (mode : Mode) {s : State}
    (h : s.engine.configured = true) :
    exec (.setBoundaryMode mode) s =
      .next { s with
        engine := { s.engine with mode := mode }, responses := s.responses ++ [⟨.ok, none⟩] } := by
  rw [exec_eq_perform, perform_eq, instrOp, setBoundaryModeOp_configured h]

theorem decode_of_op_five {cw : CommandWord Config.W} (h : opField cw = 5) :
    decode cw = .setBoundaryMode (modeField cw) := by
  simp [decode, h]

/-- Settles O34: the run of `setBoundaryModeOp`, the fault of an unconfigured machine, the decoder's arm,
and the word of each of the two modes. -/
theorem setBoundaryModeWritesTheModeOnly : Obligations.SetBoundaryModeWritesTheModeOnly :=
  ⟨fun mode _ h => exec_setBoundaryMode_of_configured mode h,
    fun _ _ h => exec_of_unconfigured h (by simp [Instr.opcode]) (by simp [Instr.opcode]),
    fun _ => decode_of_op_five, rfl, rfl⟩

/-! ### Neither is retroactive (R93, R95) -/

/-- A read depends on `STATE` and `CONFIGURED` alone, so an operation that keeps both is not seen by the reads
immediately before and after it. -/
theorem readStateOp_after_eq_before {op : Engine W → Engine W × Response W} {e : Engine W}
    (he : e.configured = true) (hstate : (op e).1.state = e.state)
    (hconfigured : (op e).1.configured = true) :
    (readStateOp (op (readStateOp e).1).1).2 = (readStateOp e).2 := by
  rw [readStateOp_configured he, readStateOp_configured hconfigured, hstate]

/-- Settles O33: each of the two writes keeps `STATE` and `CONFIGURED`. -/
theorem configurationWritesAreNotRetroactive : Obligations.ConfigurationWritesAreNotRetroactive := by
  refine fun W e he => ⟨fun rule => ?_, fun mode => ?_⟩
  · have hop := setRuleOp_configured he rule
    have hstate : (setRuleOp rule e).1.state = e.state := by rw [hop]
    exact ⟨hstate, readStateOp_after_eq_before he hstate (by rw [hop]; exact he)⟩
  · have hop := setBoundaryModeOp_configured he mode
    have hstate : (setBoundaryModeOp mode e).1.state = e.state := by rw [hop]
    exact ⟨hstate, readStateOp_after_eq_before he hstate (by rw [hop]; exact he)⟩

end Sys2Proof.Machine
end

section
/-! PROOFS of the statements about `SET_STATE` and `RESET`, spec 44_set_state_reset.md (R96 to R100): what
each writes, the second spelling of `SET_STATE`, the read of the row it loaded, and the restore point after
any commands that do not move it. -/

namespace Sys2Proof.Machine

variable {W : Nat}

/-! ### `SET_STATE` (R96) -/

theorem exec_setState_of_configured (bits : Row Config.W) {s : State}
    (h : s.engine.configured = true) :
    exec (.setState bits) s =
      .next { s with
        engine := { s.engine with state := bits, initState := bits },
        responses := s.responses ++ [⟨.ok, none⟩] } := by
  rw [exec_eq_perform, perform_eq, instrOp, setStateOp_configured h]

theorem decode_of_op_six {cw : CommandWord Config.W} (h : opField cw = 6) :
    decode cw = .setState (bitsField cw) := by
  simp [decode, h]

theorem toNat_encode_setState (bits : Row Config.W) :
    (encode (.setState bits)).toNat = bits.toNat * 4096 + 6 := by
  rw [encode, toNat_assembleWord]
  simp [Mode.bit]

/-- Settles O35: the run of `setStateOp`, the fault of an unconfigured machine, the decoder's arm, and the
number of the assembled word. -/
theorem setStateMovesTheRestorePoint : Obligations.SetStateMovesTheRestorePoint :=
  ⟨fun bits _ h => exec_setState_of_configured bits h,
    fun _ _ h => exec_of_unconfigured h (by simp [Instr.opcode]) (by simp [Instr.opcode]),
    fun _ => decode_of_op_six, toNat_encode_setState⟩

/-! ### `WRITE_STATE` (R97) -/

/-- Settles O8: with one operand both spellings are the same alternative of the reader, and with any other
number of operands neither spelling is a statement. -/
theorem writeStateIsSetState : Obligations.WriteStateIsSetState := by
  intro W operands
  match operands with
  | [] => rfl
  | [_] => rfl
  | [_, _] => rfl
  | [_, _, _] => rfl
  | _ :: _ :: _ :: _ :: _ => rfl

/-! ### `SET_STATE`, then `READ_STATE` (R98) -/

theorem executeWord_of_setState {cw : CommandWord W} (h : opField cw = 6) :
    executeWord cw = setStateOp (bitsField cw) := by
  simp [executeWord, h]

/-- Settles O36: `SET_STATE` leaves the engine configured with the row in `STATE`, and the read answers
it. -/
theorem setStateThenReadReturnsTheRow : Obligations.SetStateThenReadReturnsTheRow := by
  intro W bits e he
  have hset : executeWord (assembleWord bits 0 .fixed 6) = setStateOp bits := by
    rw [executeWord_of_setState (opField_assembleWord ..), bitsField_assembleWord]
  have hread : executeWord (assembleWord (0 : Row W) 0 .fixed 3) = readStateOp :=
    executeWord_of_readState (opField_assembleWord ..)
  have hconfigured : { e with state := bits, initState := bits }.configured = true := he
  simp only [executeAll, hset, hread, setStateOp_configured he, readStateOp_configured hconfigured]

/-! ### `RESET` (R99) -/

theorem exec_reset_of_configured {s : State} (h : s.engine.configured = true) :
    exec .reset s =
      .next { s with
        engine := { s.engine with state := s.engine.initState },
        responses := s.responses ++ [⟨.ok, none⟩] } := by
  rw [exec_eq_perform, perform_eq, instrOp, resetOp_configured h]

theorem decode_of_op_seven {cw : CommandWord Config.W} (h : opField cw = 7) : decode cw = .reset := by
  simp [decode, h]

/-- `NEW`, `SET_STATE` and `RESET` on a configured engine leave it configured, with the row on its restore
point. -/
theorem instrOp_state_eq_initState {i : Instr} {e : Engine Config.W} (hc : e.configured = true)
    (hop : i.opcode = 1 ∨ i.opcode = 6 ∨ i.opcode = 7) :
    (instrOp i e).1.configured = true ∧ (instrOp i e).1.state = (instrOp i e).1.initState := by
  refine ⟨by rw [instrOp_configured, hc, Bool.true_or], ?_⟩
  cases i with
  | new rule mode bits => rfl
  | setState bits => rw [instrOp, setStateOp_configured hc]
  | reset => rw [instrOp, resetOp_configured hc]
  | reserved | step | readState | setRule | setBoundaryMode => simp [Instr.opcode] at hop

/-- A `RESET` directly after such an operation changes no register. -/
theorem reset_keeps_engine_after {i : Instr} {s t u : State} (hc : s.engine.configured = true)
    (hop : i.opcode = 1 ∨ i.opcode = 6 ∨ i.opcode = 7) (ht : exec i s = .next t)
    (hu : exec .reset t = .next u) : u.engine = t.engine := by
  rw [exec_eq_perform, perform_eq] at ht
  cases ht
  obtain ⟨hconfigured, hrow⟩ := instrOp_state_eq_initState hc hop
  rw [exec_reset_of_configured hconfigured] at hu
  cases hu
  exact congrArg (instrOp i s.engine).1.writeState hrow.symm

/-- Settles O37: the run of `resetOp`, the fault of an unconfigured machine, and the row already on its
restore point after each of the three operations. -/
theorem resetRestoresTheRow : Obligations.ResetRestoresTheRow :=
  ⟨fun _ h => exec_reset_of_configured h,
    fun _ h => exec_of_unconfigured h (by decide) (by decide),
    fun _ _ _ h => reset_keeps_engine_after h (.inr (.inr rfl)),
    fun _ _ _ _ h hop => reset_keeps_engine_after h (hop.imp_right .inl),
    fun _ => decode_of_op_seven, rfl⟩

/-! ### The last restore point (R100) -/

/-- The engine is configured and its restore point is `b`: what `RESET` needs to bring `b` back. -/
def HasRestorePoint (b : Row W) (e : Engine W) : Prop := e.configured = true ∧ e.initState = b

/-- `NEW`, and `SET_STATE` on a configured engine, make their operand the restore point. -/
theorem executeWord_establishes_restorePoint {cw : CommandWord W} {e : Engine W}
    (h : opField cw = 1 ∨ (opField cw = 6 ∧ e.configured = true)) :
    HasRestorePoint (bitsField cw) (executeWord cw e).1 := by
  rcases h with hnew | ⟨hset, hc⟩
  · rw [executeWord_of_new hnew]
    exact ⟨rfl, rfl⟩
  · rw [executeWord_of_setState hset, setStateOp_configured hc]
    exact ⟨hc, rfl⟩

/-- Every other command, a faulting one included, leaves the restore point where it is. -/
theorem executeWord_keeps_restorePoint {cw : CommandWord W} (h : movesRestorePoint cw = false)
    {b : Row W} (e : Engine W) (he : HasRestorePoint b e) :
    HasRestorePoint b (executeWord cw e).1 := by
  obtain ⟨hc, hinit⟩ := he
  obtain ⟨h₁, h₆⟩ : opField cw ≠ 1 ∧ opField cw ≠ 6 := by simpa [movesRestorePoint] using h
  obtain ⟨-, hinitChanged, -, -, hcChanged⟩ := executeWord_changes cw e
  exact ⟨(by_contra fun hne => h₁ (hcChanged hne)).trans hc,
    (by_contra fun hne => (hinitChanged hne).elim h₁ h₆).trans hinit⟩

theorem executeWord_reset_state {cw : CommandWord W} (h : opField cw = 7) {b : Row W} {e : Engine W}
    (he : HasRestorePoint b e) : (executeWord cw e).1.state = b := by
  obtain ⟨hc, hinit⟩ := he
  have hreset : executeWord cw = resetOp := by simp [executeWord, h]
  rw [hreset, resetOp_configured hc]
  exact hinit

theorem executeAll_append_engine (cws cws' : List (CommandWord W)) (e : Engine W) :
    (executeAll (cws ++ cws') e).1 = (executeAll cws' (executeAll cws e).1).1 := by
  induction cws generalizing e with
  | nil => rfl
  | cons cw rest ih => exact ih (executeWord cw e).1

/-- Settles O38: the first command establishes `HasRestorePoint`, every later one keeps it, and `RESET`
copies the restore point. -/
theorem resetRestoresTheLastRestorePoint : Obligations.ResetRestoresTheLastRestorePoint := by
  intro W e start cws hstart hcws
  have hpoint : HasRestorePoint (bitsField start) (executeAll (start :: cws) e).1 :=
    executeAll_keeps (fun cw hcw => executeWord_keeps_restorePoint (hcws cw hcw))
      (executeWord_establishes_restorePoint hstart)
  refine ⟨hpoint.2, fun reset hreset => ?_⟩
  rw [executeAll_append_engine]
  exact executeWord_reset_state hreset hpoint

end Sys2Proof.Machine
end

section
/-! PROOFS of the statements about faults, spec 60_exceptions.md (R112 to R115): the order of the two checks,
what an unconfigured engine answers, and `FAULT` along a command sequence. -/

namespace Sys2Proof.Machine

variable {W : Nat}

/-! ### `FAULT` along a command sequence (R113, R114) -/

theorem firstFaultCode_cons_of_ok {r : Response W} (h : r.status = .ok) (rest : List (Response W)) :
    firstFaultCode (r :: rest) = firstFaultCode rest := if_pos h

theorem firstFaultCode_cons_of_fault {r : Response W} {cause : FaultCause}
    (h : r.status = .fault cause) (rest : List (Response W)) :
    firstFaultCode (r :: rest) = cause.code := by
  rw [firstFaultCode, h, if_neg nofun, Status.code]

/-- A fault once recorded is neither overwritten nor cleared by any command. -/
theorem executeAll_keeps_recorded_fault {e : Engine W} (he : e.fault ≠ 0)
    (cws : List (CommandWord W)) : (executeAll cws e).1.fault = e.fault := by
  refine executeAll_keeps (P := fun f => f.fault = e.fault) (fun cw _ f hf => ?_) rfl
  by_contra hne
  obtain ⟨hzero, -⟩ := executeWord_fault_ne (cw := cw) (e := f) (hf ▸ hne)
  exact he (hf ▸ hzero)

/-- From `FAULT = 0`, the first command that faults records its code, and what follows keeps it. -/
theorem executeAll_records_first_fault (cws : List (CommandWord W)) {e : Engine W}
    (he : e.fault = 0) : (executeAll cws e).1.fault = firstFaultCode (executeAll cws e).2 := by
  induction cws generalizing e with
  | nil => exact he
  | cons cw rest ih =>
    rw [executeAll]
    rcases executeWord_raises_or_ok cw e with ⟨cause, hraise⟩ | ⟨hok, hkept⟩
    · have hcode : (executeWord cw e).1.fault = cause.code := by
        rw [hraise, raise_eq, he]
        exact firstFault_zero cause
      have hstatus : (executeWord cw e).2.status = .fault cause := by rw [hraise, raise_eq]
      rw [firstFaultCode_cons_of_fault hstatus,
        executeAll_keeps_recorded_fault (hcode ▸ cause.code_ne_zero), hcode]
    · rw [firstFaultCode_cons_of_ok hok]
      exact ih (hkept.trans he)

/-- Settles O47: the effect of `raise`, then the two kinds of run: from a recorded fault and from none. -/
theorem faultHoldsTheFirstFault : Obligations.FaultHoldsTheFirstFault :=
  ⟨fun _ cause e => ⟨raise_eq cause e, rfl⟩,
    fun _ cws _ => ⟨fun he => executeAll_keeps_recorded_fault he cws,
      executeAll_records_first_fault cws⟩,
    fun _ => Engine.hardReset_fault⟩

/-! ### The unconfigured engine (R112) -/

theorem executeWord_of_unconfigured {cw : CommandWord W} {e : Engine W}
    (hc : e.configured = false) (h₀ : opField cw ≠ 0) (h₁ : opField cw ≠ 1) :
    executeWord cw e = raise .notConfigured e := by
  rw [executeWord_eq_whenConfigured h₀ h₁, whenConfigured_of_unconfigured hc]

/-- Of an unconfigured engine a command reads at most `FAULT`: the response and the new `FAULT` are the
same whatever the four unspecified registers hold. -/
theorem executeWord_congr_of_unconfigured (cw : CommandWord W) {e e' : Engine W}
    (hc : e.configured = false) (hc' : e'.configured = false) (hfault : e.fault = e'.fault) :
    (executeWord cw e).2 = (executeWord cw e').2 ∧
    (executeWord cw e).1.fault = (executeWord cw e').1.fault := by
  have hraise (cause : FaultCause) : (raise cause e).2 = (raise cause e').2 ∧
      (raise cause e).1.fault = (raise cause e').1.fault := by
    simp only [raise_eq, hfault, and_self]
  by_cases h₀ : opField cw = 0
  · rw [executeWord_of_reserved h₀]
    exact hraise _
  by_cases h₁ : opField cw = 1
  · rw [executeWord_of_new h₁]
    exact ⟨rfl, hfault⟩
  rw [executeWord_of_unconfigured hc h₀ h₁, executeWord_of_unconfigured hc' h₀ h₁]
  exact hraise _

/-- Settles O45: the fault of an unconfigured engine, the response of `NEW`, and the independence from the
unspecified registers. -/
theorem unconfiguredOperationsRaiseNotConfigured :
    Obligations.UnconfiguredOperationsRaiseNotConfigured :=
  ⟨fun _ _ _ => executeWord_of_unconfigured,
    fun _ _ _ hnew => by rw [executeWord_of_new hnew, newOp_eq],
    rfl, fun _ cw _ _ => executeWord_congr_of_unconfigured cw⟩

/-! ### The order of the checks (R115) -/

theorem executeWord_of_setRule {cw : CommandWord W} (h : opField cw = 4) :
    executeWord cw = setRuleOp (ruleField cw) := by
  simp [executeWord, h]

theorem executeWord_of_setBoundaryMode {cw : CommandWord W} (h : opField cw = 5) :
    executeWord cw = setBoundaryModeOp (modeField cw) := by
  simp [executeWord, h]

theorem executeWord_of_reset {cw : CommandWord W} (h : opField cw = 7) :
    executeWord cw = resetOp := by
  simp [executeWord, h]

/-- Settles O48: the reserved opcode whatever `CONFIGURED` holds, the check of `CONFIGURED` on an unconfigured
engine, and past both checks the effect of each operation. -/
theorem faultPriority : Obligations.FaultPriority := by
  refine fun W cw e => ⟨fun h => by rw [executeWord_of_reserved h],
    fun h₀ h₁ hc => executeWord_of_unconfigured hc h₀ h₁,
    fun h => by rw [executeWord_of_new h], fun hc => ⟨?_, ?_, ?_, ?_, ?_, ?_⟩⟩
  · exact fun h => by rw [executeWord_of_step h, stepOp_configured hc]
  · exact fun h => by rw [executeWord_of_readState h, readStateOp_configured hc]
  · exact fun h => by rw [executeWord_of_setRule h, setRuleOp_configured hc]
  · exact fun h => by rw [executeWord_of_setBoundaryMode h, setBoundaryModeOp_configured hc]
  · exact fun h => by rw [executeWord_of_setState h, setStateOp_configured hc]
  · exact fun h => by rw [executeWord_of_reset h, resetOp_configured hc]

end Sys2Proof.Machine
end

section
/-! PROOFS of the statements about reset and hazards, spec 70_reset_and_hazards.md (R134): the responses of a
command sequence before the first `NEW` and after it. -/

namespace Sys2Proof.Machine

variable {W : Nat}

/-- Where every command of a sequence keeps `P` and from `P` answers with `Q`, the whole sequence answers
with `Q`. -/
theorem executeAll_answers {P : Engine W → Prop} {Q : Response W → Prop} {cws : List (CommandWord W)}
    (hkeeps : ∀ cw ∈ cws, ∀ e, P e → P (executeWord cw e).1)
    (hanswers : ∀ cw ∈ cws, ∀ e, P e → Q (executeWord cw e).2) {e : Engine W} (he : P e) :
    ∀ r ∈ (executeAll cws e).2, Q r := by
  induction cws generalizing e with
  | nil => exact fun _ hr => absurd hr List.not_mem_nil
  | cons cw rest ih =>
    exact List.forall_mem_cons.mpr ⟨hanswers cw (.head _) e he,
      ih (fun c hc => hkeeps c (.tail _ hc)) (fun c hc => hanswers c (.tail _ hc))
        (hkeeps cw (.head _) e he)⟩

/-! ### Before `NEW` -/

/-- The engine is `e` but for what `FAULT` holds. -/
def EqExceptFault (e f : Engine W) : Prop := f = { e with fault := f.fault }

theorem EqExceptFault.configured_eq {e f : Engine W} (h : EqExceptFault e f) :
    f.configured = e.configured := by
  rw [h]

theorem EqExceptFault.raise {e f : Engine W} (h : EqExceptFault e f) (cause : FaultCause) :
    EqExceptFault e (raise cause f).1 := by
  rw [h]
  rfl

/-- Of an unconfigured engine, an operation other than `NEW` changes `FAULT` only. -/
theorem executeWord_keeps_eqExceptFault {cw : CommandWord W} (hop : opField cw ≠ 0 ∧ opField cw ≠ 1)
    {e : Engine W} (hc : e.configured = false) (f : Engine W) (hf : EqExceptFault e f) :
    EqExceptFault e (executeWord cw f).1 := by
  rw [executeWord_of_unconfigured (hf.configured_eq.trans hc) hop.1 hop.2]
  exact hf.raise _

/-- Of an unconfigured engine, an operation other than `NEW` is answered `NotConfigured`, whatever `FAULT`
holds. -/
theorem executeWord_answers_notConfigured {cw : CommandWord W}
    (hop : opField cw ≠ 0 ∧ opField cw ≠ 1) {e : Engine W} (hc : e.configured = false)
    (f : Engine W) (hf : EqExceptFault e f) :
    (executeWord cw f).2 = ⟨.fault .notConfigured, none⟩ := by
  rw [executeWord_of_unconfigured (hf.configured_eq.trans hc) hop.1 hop.2, raise_eq]

/-! ### From `NEW` on -/

/-- No command takes a configured engine back to unconfigured; only hard reset does. -/
theorem executeWord_keeps_configured (cw : CommandWord W) (e : Engine W) (hc : e.configured = true) :
    (executeWord cw e).1.configured = true := by
  by_cases hnew : opField cw = 1
  · rw [executeWord_of_new hnew, newOp_eq]
  · obtain ⟨-, -, -, -, hchanged⟩ := executeWord_changes cw e
    exact (not_imp_comm.mp hchanged hnew).trans hc

/-- On a configured engine every operation is answered `OK`. -/
theorem executeWord_answers_ok {cw : CommandWord W} (h₀ : opField cw ≠ 0) (e : Engine W)
    (hc : e.configured = true) : (executeWord cw e).2.status = .ok := by
  rw [executeWord_status, if_neg h₀, if_neg (by simp [hc])]

/-- Settles O54: without `NEW` the engine stays as it was but for `FAULT`, so that every operation finds it
unconfigured; `NEW` completes from any engine, and every operation after it finds the engine configured. -/
theorem nothingRunsBeforeNew : Obligations.NothingRunsBeforeNew := by
  refine ⟨fun W cws e hc hcws => ?_, fun W cws e start hnew hcws => ?_⟩
  · have hkeeps : ∀ cw ∈ cws, ∀ f, EqExceptFault e f → EqExceptFault e (executeWord cw f).1 :=
      fun cw hcw => executeWord_keeps_eqExceptFault (hcws cw hcw) hc
    exact ⟨executeAll_answers hkeeps
        (fun cw hcw => executeWord_answers_notConfigured (hcws cw hcw) hc) rfl,
      executeAll_keeps hkeeps rfl⟩
  · rw [executeAll, executeWord_of_new hnew, newOp_eq]
    exact List.forall_mem_cons.mpr ⟨rfl,
      executeAll_answers (fun cw _ => executeWord_keeps_configured cw)
        (fun cw hcw => executeWord_answers_ok (hcws cw hcw)) rfl⟩

end Sys2Proof.Machine
end

section
/-! PROOFS that decoding and encoding agree, spec 30_encoding.md (R50 to R56, R60): the decoder undoes the
encoder on every instruction, and what it reads of a word is exactly the fields the operation uses. -/

namespace Sys2Proof.Machine

/-! ### Decode after encode -/

theorem decode_encode (i : Instr) : decode (encode i) = i := by
  cases i with
  | reserved => exact (decode_eq_reserved_iff _).mpr (opField_assembleWord ..)
  | new rule mode bits => exact decode_assembleWord_new rule mode bits
  | step => exact decode_of_op_two (opField_assembleWord ..)
  | readState => exact decode_of_op_three (opField_assembleWord ..)
  | setRule rule => rw [encode, decode_of_op_four (opField_assembleWord ..), ruleField_assembleWord]
  | setBoundaryMode mode =>
    rw [encode, decode_of_op_five (opField_assembleWord ..), modeField_assembleWord]
  | setState bits => rw [encode, decode_of_op_six (opField_assembleWord ..), bitsField_assembleWord]
  | reset => exact decode_of_op_seven (opField_assembleWord ..)

theorem opField_encode (i : Instr) : opField (encode i) = i.opcode := by
  rw [← opcode_decode, decode_encode]

/-! ### Encode after decode -/

/-- The converse of `decode_congr`: two words that decode alike have the same opcode and agree in every field
that the operation uses. -/
theorem fields_eq_of_decode_eq {cw cw' : CommandWord Config.W} (h : decode cw = decode cw') :
    opField cw = opField cw' ∧
    (opField cw' = 1 ∨ opField cw' = 4 → ruleField cw = ruleField cw') ∧
    (opField cw' = 1 ∨ opField cw' = 5 → modeField cw = modeField cw') ∧
    (opField cw' = 1 ∨ opField cw' = 6 → bitsField cw = bitsField cw') := by
  have hop : opField cw = opField cw' := by rw [← opcode_decode, h, opcode_decode]
  have hnew (h₁ : opField cw' = 1) : ruleField cw = ruleField cw' ∧
      modeField cw = modeField cw' ∧ bitsField cw = bitsField cw' := by
    rw [decode_of_op_one h₁, decode_of_op_one (hop.trans h₁)] at h
    exact Instr.new.inj h
  refine ⟨hop, ?_, ?_, ?_⟩
  · rintro (h₁ | h₄)
    · exact (hnew h₁).1
    · rw [decode_of_op_four h₄, decode_of_op_four (hop.trans h₄)] at h
      exact Instr.setRule.inj h
  · rintro (h₁ | h₅)
    · exact (hnew h₁).2.1
    · rw [decode_of_op_five h₅, decode_of_op_five (hop.trans h₅)] at h
      exact Instr.setBoundaryMode.inj h
  · rintro (h₁ | h₆)
    · exact (hnew h₁).2.2
    · rw [decode_of_op_six h₆, decode_of_op_six (hop.trans h₆)] at h
      exact Instr.setState.inj h

/-- Settles O5: the word of each instruction decodes to it, so a word and the encoding of its decoded
instruction decode alike. -/
theorem decodeOfEncodeIsTheInstruction : Obligations.DecodeOfEncodeIsTheInstruction :=
  ⟨decode_encode, fun cw => fields_eq_of_decode_eq (decode_encode (decode cw))⟩

/-- Settles O6: fixed words, evaluated. -/
theorem writtenOutWordsDecode : Obligations.WrittenOutWordsDecode := by
  unfold Obligations.WrittenOutWordsDecode
  decide +kernel

end Sys2Proof.Machine
end

section
/-! PROOFS of the statements about the machine's step and its invariant, spec 00_scope.md R8,
20_memory.md R38, 60_exceptions.md R110 and 70_reset_and_hazards.md (R130 to R133): the step for each kind of
input, the run over issued commands, and what every step keeps. -/

namespace Sys2Proof.Machine

/-! ### The step, by the next input -/

/-- The machine after one command word: the registers and the response are those of the word's execution. -/
theorem exec_decode (cw : CommandWord Config.W) (s : State) :
    exec (decode cw) s =
      .next { s with engine := (executeWord cw s.engine).1,
                     responses := s.responses ++ [(executeWord cw s.engine).2] } := by
  rw [exec_eq_perform, instrOp_decode, perform_eq]

variable {s : State} {cw : CommandWord Config.W} {rest : List (HostInput Config.W)}

theorem nextInput_of_nil (h : s.inputs = []) : s.nextInput = none := by
  rw [State.nextInput, h]

theorem nextInput_of_cons {input : HostInput Config.W} (h : s.inputs = input :: rest) :
    s.nextInput = some (input, s.withInputs rest) := by
  rw [State.nextInput, h]

theorem step_of_nil (h : s.inputs = []) : step s = .next s := by
  rw [step, nextInput_of_nil h]

theorem step_of_command (h : s.inputs = .command cw :: rest) :
    step s = exec (decode cw) (s.withInputs rest) := by
  rw [step, nextInput_of_cons h]

theorem step_of_hardReset (h : s.inputs = .hardReset :: rest) :
    step s = .next (s.withInputs rest).hardReset := by
  rw [step, nextInput_of_cons h]

theorem step_of_commandCutByHardReset (h : s.inputs = .commandCutByHardReset cw :: rest) :
    step s = .next (s.withInputs rest).hardReset := by
  rw [step, nextInput_of_cons h]

/-! ### The invariant -/

/-- Settles O58: after reset there is no fault, no configuration and no response. -/
theorem invariantHoldsAtReset : Obligations.InvariantHoldsAtReset where
  fault_legal := by rw [State.reset_fault]; decide
  fault_answered h := absurd State.reset_fault h
  configured_answered h := by rw [State.reset_configured] at h; cases h
  responses_legal r hr := by rw [State.reset_responses] at hr; cases hr

/-- The invariant does not speak of the inputs still to come. -/
theorem State.Inv.withInputs (h : s.Inv) (inputs : List (HostInput Config.W)) :
    (s.withInputs inputs).Inv :=
  ⟨h.fault_legal, h.fault_answered, h.configured_answered, h.responses_legal⟩

/-- The response to a fault carries the code that `FAULT` records if it recorded none before. -/
theorem State.Inv.raise (h : s.Inv) (cause : FaultCause) :
    State.Inv { s with engine := (raise cause s.engine).1,
                       responses := s.responses ++ [(raise cause s.engine).2] } where
  fault_legal := firstFault_ne_three h.fault_legal cause
  fault_answered _ := by
    by_cases hzero : s.engine.fault = 0
    · refine ⟨_, List.mem_append_right _ (.head _), ?_⟩
      simp only [raise_eq, firstFault, if_pos hzero, Status.code]
    · obtain ⟨r, hr, hcode⟩ := h.fault_answered hzero
      exact ⟨r, List.mem_append_left _ hr, by
        rw [raise_eq, firstFault_of_ne_zero hzero, hcode]⟩
  configured_answered hc := by
    obtain ⟨r, hr, hok⟩ := h.configured_answered hc
    exact ⟨r, List.mem_append_left _ hr, hok⟩
  responses_legal r hr := by
    rcases List.mem_append.mp hr with hr | hr
    · exact h.responses_legal r hr
    · rw [List.mem_singleton.mp hr]
      exact nofun

/-- An `OK` response answers for `CONFIGURED`, and leaves `FAULT` to the responses before it. -/
theorem State.Inv.complete (h : s.Inv) {e : Engine Config.W} {r : Response Config.W}
    (hok : r.status = .ok) (hfault : e.fault = s.engine.fault) :
    State.Inv { s with engine := e, responses := s.responses ++ [r] } where
  fault_legal := by rw [hfault]; exact h.fault_legal
  fault_answered hne := by
    rw [hfault] at hne ⊢
    obtain ⟨r, hr, hcode⟩ := h.fault_answered hne
    exact ⟨r, List.mem_append_left _ hr, hcode⟩
  configured_answered _ := ⟨r, List.mem_append_right _ (.head _), hok⟩
  responses_legal r' hr := by
    rcases List.mem_append.mp hr with hr | hr
    · exact h.responses_legal r' hr
    · rw [List.mem_singleton.mp hr]
      exact fun _ => hok

theorem State.Inv.executeWord (h : s.Inv) (cw : CommandWord Config.W) :
    State.Inv { s with engine := (executeWord cw s.engine).1,
                       responses := s.responses ++ [(executeWord cw s.engine).2] } := by
  rcases executeWord_raises_or_ok cw s.engine with ⟨cause, hraise⟩ | ⟨hok, hfault⟩
  · rw [hraise]
    exact h.raise cause
  · exact h.complete hok hfault

/-- Hard reset takes back what the responses have to answer for. -/
theorem State.Inv.hardReset (h : s.Inv) : s.hardReset.Inv where
  fault_legal := by rw [State.hardReset_engine, Engine.hardReset_fault]; decide
  fault_answered hne := absurd (Engine.hardReset_fault s.engine) hne
  configured_answered hc := by
    rw [State.hardReset_engine, Engine.hardReset_configured] at hc
    cases hc
  responses_legal := h.responses_legal

/-- Settles O59: a step holds the machine, executes a word (which faults or completes), or resets. -/
theorem everyStepKeepsTheInvariant : Obligations.EveryStepKeepsTheInvariant := by
  intro s t h hstep
  rcases step_cases hstep with ⟨-, rfl⟩ | ⟨cw, rest, -, hexec⟩ | ⟨-, rest, -, -, rfl⟩
  · exact h
  · rw [exec_decode] at hexec
    cases hexec
    exact (h.withInputs rest).executeWord cw
  · exact (h.withInputs rest).hardReset

/-! ### What a step answers -/

theorem tableWord_of_lt {nbits w : Nat} (h : w < 2 ^ nbits) :
    tableWord nbits w = BitVec.ofNat (Config.W + 12) w := by
  rw [tableWord, Nat.mod_eq_of_lt h]

/-- Settles O50: the step on a command at the head of the inputs, the run of the word's execution, and the
table's word as that command. -/
theorem stepRunsTheDecodedCommand : Obligations.StepRunsTheDecodedCommand :=
  ⟨fun _ _ _ h => step_of_command h, fun s cw => exec_decode cw s,
    fun s nbits w hw _ => ⟨decode (tableWord nbits w), rfl, by rw [tableWord_of_lt hw],
      step_of_command (s := s.withFetchWord nbits w) rfl⟩⟩

/-- Settles O51: without an input the step takes none. -/
theorem idleStepHolds : Obligations.IdleStepHolds := fun _ => step_of_nil

/-- Settles O52: the step on a hard reset, and the two registers of the engine after it. -/
theorem hardResetUnconfigures : Obligations.HardResetUnconfigures :=
  ⟨fun s _ h => ⟨s.engine.hardReset, step_of_hardReset h, Engine.hardReset_configured _,
      Engine.hardReset_fault _⟩,
    State.reset_configured, State.reset_fault⟩

/-- Settles O57: the next state for each kind of input, and for none. -/
theorem everyStepGivesANextState : Obligations.EveryStepGivesANextState := by
  intro s
  match h : s.inputs with
  | [] => exact ⟨_, step_of_nil h⟩
  | .command cw :: rest => exact ⟨_, (step_of_command h).trans (exec_decode cw _)⟩
  | .hardReset :: rest => exact ⟨_, step_of_hardReset h⟩
  | .commandCutByHardReset cw :: rest => exact ⟨_, step_of_commandCutByHardReset h⟩

end Sys2Proof.Machine
end

section
/-! PROOFS of the statements about command sequences, spec 20_memory.md R38, 60_exceptions.md (R110, R117) and
70_reset_and_hazards.md R131: the run of the machine as the execution of the issued words, and two runs of one
sequence, from engines between which no command tells a difference. -/

namespace Sys2Proof.Machine

variable {W : Nat}

/-! ### The run of the machine (20_memory.md R38) -/

/-- Steps that begin with one to a next state go on from that state. -/
theorem run_succ_of_step {M : Host.Core} {s t : M.State} (h : M.step s = .next t) (k : Nat) :
    M.run (k + 1) s = M.run k t := by
  rw [Host.Core.run, h]

/-- As many steps as commands are issued execute these commands and take nothing that comes later. -/
theorem run_commands (cws : List (CommandWord Config.W)) (later : List (HostInput Config.W))
    {s : State} (h : s.inputs = cws.map .command ++ later) :
    Sys2Proof.core.run cws.length s =
      .next { engine := (executeAll cws s.engine).1, inputs := later,
              responses := s.responses ++ (executeAll cws s.engine).2 } := by
  induction cws generalizing s with
  | nil =>
    obtain ⟨engine, inputs, responses⟩ := s
    cases h
    rw [executeAll, List.append_nil]
    rfl
  | cons cw rest ih =>
    have hstep := (step_of_command h).trans (exec_decode cw _)
    rw [List.length_cons, run_succ_of_step (M := Sys2Proof.core) hstep, ih rfl, executeAll, List.append_assoc]
    rfl

/-- Settles O15: the run by induction on the commands, and each pair of commands by the configured effect of
its two operations. -/
theorem runIsTheSequenceOfCommands : Obligations.RunIsTheSequenceOfCommands := by
  refine ⟨fun s cws later h => run_commands cws later h,
    fun W e stepWord readWord ruleWord stateWord resetWord hc hstep hread hrule hstate hreset =>
      ⟨?_, ?_, ?_⟩⟩
  · simp only [executeAll, executeWord_of_step hstep, executeWord_of_readState hread,
      stepOp_configured, readStateOp_configured, hc]
  · simp only [executeAll, executeWord_of_setRule hrule, executeWord_of_step hstep,
      setRuleOp_configured, stepOp_configured, hc]
  · simp only [executeAll, executeWord_of_setState hstate, executeWord_of_reset hreset,
      setStateOp_configured, resetOp_configured, hc]

/-! ### Completion or fault (60_exceptions.md R110) -/

/-- An instruction's operation is the execution of the word it encodes to. -/
theorem instrOp_eq_executeWord_encode (i : Instr) : instrOp i = executeWord (encode i) := by
  rw [← instrOp_decode, decode_encode]

/-- Settles O44: the encoded word completes or takes a fault, and completes on a configured machine. -/
theorem everyCommandCompletesOrFaults : Obligations.EveryCommandCompletesOrFaults := by
  intro i s
  refine ⟨_, _, exec_eq_perform i s, ?_, fun hc hop => ?_⟩
  all_goals rw [instrOp_eq_executeWord_encode]
  · rcases executeWord_raises_or_ok (encode i) s.engine with ⟨cause, hraise⟩ | ⟨hok, -⟩
    · exact .inr ⟨cause, by rw [hraise]; rfl, by rw [hraise]; rfl⟩
    · exact .inl hok
  · exact executeWord_answers_ok (by rwa [opField_encode]) s.engine hc

/-! ### Two runs of one sequence -/

/-- A relation between engines that every command keeps, and across which every command answers alike,
extends to command sequences. -/
theorem executeAll_related {R : Engine W → Engine W → Prop}
    (hword : ∀ cw e e', R e e' →
      (executeWord cw e).2 = (executeWord cw e').2 ∧ R (executeWord cw e).1 (executeWord cw e').1)
    (cws : List (CommandWord W)) {e e' : Engine W} (h : R e e') :
    (executeAll cws e).2 = (executeAll cws e').2 ∧
      R (executeAll cws e).1 (executeAll cws e').1 := by
  induction cws generalizing e e' with
  | nil => exact ⟨rfl, h⟩
  | cons cw rest ih =>
    obtain ⟨hresponse, hengine⟩ := hword cw e e' h
    obtain ⟨hresponses, hend⟩ := ih hengine
    exact ⟨congrArg₂ List.cons hresponse hresponses, hend⟩

/-! ### Engines that differ in `FAULT` (60_exceptions.md R117) -/

theorem executeWord_related_exceptFault (cw : CommandWord W) (e e' : Engine W)
    (h : EqExceptFault e e') :
    (executeWord cw e).2 = (executeWord cw e').2 ∧
      EqExceptFault (executeWord cw e).1 (executeWord cw e').1 := by
  obtain ⟨hresponse, hengine⟩ := unread_fault cw e e'.fault (executeWord cw e').1.fault
  beta_reduce at hresponse hengine
  rw [← h] at hresponse hengine
  exact ⟨hresponse.symm, hengine⟩

/-- Settles O49: no command reads `FAULT`, so `EqExceptFault` is kept along the sequence. -/
theorem faultRegisterInfluencesNoCommand : Obligations.FaultRegisterInfluencesNoCommand := by
  intro W cws e f
  have hstart : EqExceptFault e { e with fault := f } := rfl
  obtain ⟨hresponses, hend⟩ := executeAll_related executeWord_related_exceptFault cws hstart
  exact ⟨hresponses.symm, congrArg (fun g : Engine W => { g with fault := 0 }) hend⟩

/-! ### Engines that differ in what the spec leaves unspecified (70_reset_and_hazards.md R131) -/

/-- The engines hold the same `CONFIGURED` and `FAULT`, and once they are configured the same four registers:
what a host can tell apart at most. -/
structure SameForHost (e e' : Engine W) : Prop where
  configured : e.configured = e'.configured
  fault : e.fault = e'.fault
  registers : e.configured = true →
    e.state = e'.state ∧ e.initState = e'.initState ∧ e.rule = e'.rule ∧ e.mode = e'.mode

/-- The model's own count of hard resets is read by no command. -/
theorem unread_resetCount (cw : CommandWord W) :
    Unread (fun e n => { e with resetCount := n }) (executeWord cw) := by
  refine .executeWord (fun _ _ => rfl) (fun _ _ _ _ => ⟨rfl, rfl⟩)
    (fun _ _ _ _ _ _ => ⟨rfl, rfl⟩) ?_
  unfold configuredOp
  split
  all_goals exact fun _ _ _ => ⟨rfl, rfl⟩

/-- Configured engines that are the same for the host differ in the count of hard resets alone. -/
theorem SameForHost.eq_of_configured {e e' : Engine W} (h : SameForHost e e')
    (hc : e.configured = true) : e' = { e with resetCount := e'.resetCount } := by
  obtain ⟨hstate, hinit, hrule, hmode⟩ := h.registers hc
  rw [hstate, hinit, hrule, hmode, h.configured, h.fault]

theorem sameForHost_of_eq {e e' : Engine W} (h : e' = { e with resetCount := e'.resetCount }) :
    SameForHost e e' := by
  rw [h]
  exact ⟨rfl, rfl, fun _ => ⟨rfl, rfl, rfl, rfl⟩⟩

/-- Only `NEW` takes an unconfigured engine to a configured one. -/
theorem executeWord_keeps_unconfigured {cw : CommandWord W} (hop : opField cw ≠ 1) {e : Engine W}
    (hc : e.configured = false) : (executeWord cw e).1.configured = false := by
  obtain ⟨-, -, -, -, hchanged⟩ := executeWord_changes cw e
  exact (not_imp_comm.mp hchanged hop).trans hc

theorem executeWord_related_sameForHost (cw : CommandWord W) (e e' : Engine W)
    (h : SameForHost e e') :
    (executeWord cw e).2 = (executeWord cw e').2 ∧
      SameForHost (executeWord cw e).1 (executeWord cw e').1 := by
  cases hc : e.configured with
  | true =>
    obtain ⟨hresponse, hengine⟩ :=
      unread_resetCount cw e e'.resetCount (executeWord cw e').1.resetCount
    beta_reduce at hresponse hengine
    rw [← h.eq_of_configured hc] at hresponse hengine
    exact ⟨hresponse.symm, sameForHost_of_eq hengine⟩
  | false =>
    have hc' : e'.configured = false := h.configured ▸ hc
    obtain ⟨hresponse, hfault⟩ := executeWord_congr_of_unconfigured cw hc hc' h.fault
    refine ⟨hresponse, ?_⟩
    by_cases hnew : opField cw = 1
    · rw [executeWord_of_new hnew]
      exact ⟨rfl, h.fault, fun _ => ⟨rfl, rfl, rfl, rfl⟩⟩
    · have hkept := executeWord_keeps_unconfigured hnew hc
      exact ⟨hkept.trans (executeWord_keeps_unconfigured hnew hc').symm, hfault,
        fun htrue => absurd (hkept.symm.trans htrue) Bool.false_ne_true⟩

/-- Settles O46: unconfigured engines with the same `FAULT` are the same for the host, and stay so. -/
theorem unspecifiedContentsNeverReachTheHost : Obligations.UnspecifiedContentsNeverReachTheHost := by
  intro W cws e e' hc hc' hfault
  have hstart : SameForHost e e' :=
    ⟨hc.trans hc'.symm, hfault, fun htrue => absurd (hc.symm.trans htrue) Bool.false_ne_true⟩
  obtain ⟨hresponses, hend⟩ := executeAll_related executeWord_related_sameForHost cws hstart
  exact ⟨hresponses, hend.fault, hend.configured, hend.registers⟩

end Sys2Proof.Machine
end

section
/-! PROOFS of the statements about the ports, spec 30_encoding.md R58 and 70_reset_and_hazards.md (R132, R136,
R140): one clock for each thing a port can be doing, and the clocks from acceptance to response. -/

namespace Sys2Proof.Machine

variable {W : Nat} {lat : CommandWord W → Nat} {p : PortState W} {pins : InputPorts W}
  {cw : CommandWord W} {n : Nat}

/-! ### One clock -/

theorem clock_of_hreset (h : pins.hreset = true) :
    p.clock lat pins = { engine := p.engine.hardReset, inFlight := none } := by
  rw [PortState.clock, if_pos h]

theorem response_of_hreset (h : pins.hreset = true) : p.response pins = none := by
  rw [PortState.response, if_pos h]

theorem clock_of_accept (hp : p.inFlight = none) (h : pins.hreset = false)
    (hvalid : pins.cmdValid = true) :
    p.clock lat pins = { p with inFlight := some (pins.cmd, lat pins.cmd) } := by
  simp [PortState.clock, h, hp, hvalid]

theorem response_of_idle (hp : p.inFlight = none) : p.response pins = none := by
  simp [PortState.response, hp]

theorem clock_of_waiting (hp : p.inFlight = some (cw, n + 1)) (h : pins.hreset = false) :
    p.clock lat pins = { p with inFlight := some (cw, n) } := by
  simp [PortState.clock, h, hp]

theorem response_of_waiting (hp : p.inFlight = some (cw, n + 1)) : p.response pins = none := by
  simp [PortState.response, hp]

theorem clock_of_due (hp : p.inFlight = some (cw, 0)) (h : pins.hreset = false) :
    p.clock lat pins = { engine := (executeWord cw p.engine).1, inFlight := none } := by
  simp [PortState.clock, h, hp]

theorem response_of_due (hp : p.inFlight = some (cw, 0)) (h : pins.hreset = false) :
    p.response pins = some (executeWord cw p.engine).2 := by
  simp [PortState.response, h, hp]

/-! ### Hard reset during a command (R132) -/

/-- Settles O53: the two inputs take the machine to the same state, and at the ports hard reset comes before
the command in flight. -/
theorem hardResetAbandonsTheCommand : Obligations.HardResetAbandonsTheCommand :=
  ⟨fun s _ rest h =>
    ⟨(step_of_commandCutByHardReset h).trans
        (step_of_hardReset (s := s.withInputs (.hardReset :: rest)) rfl).symm,
      _, step_of_commandCutByHardReset h, rfl, rfl, Engine.hardReset_configured s.engine,
      Engine.hardReset_fault s.engine⟩,
    fun _ _ _ _ _ _ _ hreset => ⟨clock_of_hreset hreset, response_of_hreset hreset⟩⟩

/-! ### One command in flight (R136) -/

/-- Settles O55: without hard reset the clock of a command in flight reads the port alone, and the command
leaves in the clock in which it is due, the one with a response. -/
theorem oneCommandInFlight : Obligations.OneCommandInFlight := by
  intro W lat p pins pins' cw n hp h h'
  have hready : (p.outputs pins).cmdReady = false := by
    rw [PortState.outputs, PortState.cmdReady, hp]
    rfl
  cases n with
  | zero =>
    refine ⟨hready, by rw [clock_of_due hp h, clock_of_due hp h'], ?_⟩
    rw [clock_of_due hp h, response_of_due hp h]
    exact iff_of_true rfl rfl
  | succ n =>
    refine ⟨hready, by rw [clock_of_waiting hp h, clock_of_waiting hp h'], ?_⟩
    rw [clock_of_waiting hp h, response_of_waiting hp]
    exact iff_of_false nofun nofun

/-! ### From acceptance to response (R140) -/

/-- A command with `n` clocks to wait is answered in the clock after these, whatever the host presents. -/
theorem run_of_inFlight {busy : List (InputPorts W)} (hp : p.inFlight = some (cw, n))
    (hlen : busy.length = n + 1) (hbusy : ∀ pins ∈ busy, pins.hreset = false) :
    PortState.run lat busy p =
      ({ engine := (executeWord cw p.engine).1, inFlight := none },
        [(executeWord cw p.engine).2]) := by
  induction n generalizing p busy with
  | zero =>
    obtain ⟨pins, rfl⟩ := List.length_eq_one_iff.mp hlen
    have h := hbusy pins (.head _)
    simp only [PortState.run, clock_of_due hp h, response_of_due hp h]
    rfl
  | succ n ih =>
    obtain ⟨pins, rest, rfl⟩ := List.exists_cons_of_length_eq_add_one hlen
    have h := hbusy pins (.head _)
    simp only [PortState.run, clock_of_waiting hp h, response_of_waiting hp]
    rw [ih rfl (Nat.succ.inj hlen) fun q hq => hbusy q (.tail _ hq)]
    rfl

/-- Settles O56: the first clock accepts the command with its latency to wait, and the busy clocks answer
it. -/
theorem acceptedCommandIsAnswered : Obligations.AcceptedCommandIsAnswered := by
  intro W lat p cw accept busy hp haccept hvalid hcmd hlen hbusy
  have hrun : PortState.run lat (accept :: busy) p =
      ({ engine := (executeWord cw p.engine).1, inFlight := none },
        [(executeWord cw p.engine).2]) := by
    simp only [PortState.run, clock_of_accept hp haccept hvalid, response_of_idle hp, hcmd]
    rw [run_of_inFlight rfl hlen hbusy]
    rfl
  exact ⟨hrun, by rw [hrun]; rfl⟩

end Sys2Proof.Machine
end

section
/-! PROOFS of the statements about requests and the assembler, spec 20_memory.md (R31, R34, R35),
60_exceptions.md R119 and 30_encoding.md (R59, R60): a request has a command word exactly if it keeps the
contract, and the line of a `SET_STATE` with a cell string. -/

namespace Sys2Proof.Machine

variable {W : Nat}

/-! ### Requests (60_exceptions.md R119) -/

theorem isSome_ruleOperand (rule : Nat) : (ruleOperand rule).isSome = ruleInRange rule := by
  unfold ruleOperand
  cases ruleInRange rule <;> rfl

theorem isSome_modeOperand (mode : Nat) : (modeOperand mode).isSome = modeInRange mode := by
  unfold modeOperand
  cases modeInRange mode <;> rfl

theorem isSome_pack (cells : List Bool) : (pack W cells).isSome = decide (cells.length = W) := by
  by_cases h : cells.length = W
  · rw [pack_of_length_eq h, decide_eq_true h, Option.isSome_some]
  · rw [pack_of_length_ne h, decide_eq_false h, Option.isSome_none]

theorem isSome_rowOperand (cells : List Nat) :
    (rowOperand W cells).isSome = (lengthIsWidth W cells && cellsAreBits cells) := by
  unfold rowOperand
  cases cellsAreBits cells with
  | false => exact (Bool.and_false _).symm
  | true => rw [if_pos rfl, isSome_pack, List.length_map, Bool.and_true, lengthIsWidth]

/-- The requests with a command word are the well-formed ones. -/
theorem isSome_toWord (request : Request) : (request.toWord W).isSome = request.WellFormed W := by
  cases request with
  | new rule mode cells =>
    rw [Request.WellFormed, Bool.and_assoc, ← isSome_ruleOperand, ← isSome_modeOperand,
      ← isSome_rowOperand, Request.toWord]
    cases ruleOperand rule <;> cases modeOperand mode <;> cases rowOperand W cells <;> rfl
  | setRule rule => rw [Request.toWord, Option.isSome_map, isSome_ruleOperand, Request.WellFormed]
  | setBoundaryMode mode =>
    rw [Request.toWord, Option.isSome_map, isSome_modeOperand, Request.WellFormed]
  | setState cells => rw [Request.toWord, Option.isSome_map, isSome_rowOperand, Request.WellFormed]
  | step | readState | reset => rfl

theorem toWord_eq_none {request : Request} (h : request.WellFormed W = false) :
    request.toWord W = none := by
  rw [← Option.not_isSome_iff_eq_none, isSome_toWord, h]
  exact Bool.false_ne_true

theorem ruleInRange_eq_false {rule : Nat} (h : 256 ≤ rule) : ruleInRange rule = false :=
  decide_eq_false (by omega)

theorem modeInRange_eq_false {mode : Nat} (h : 2 ≤ mode) : modeInRange mode = false :=
  decide_eq_false (by omega)

/-- A sequence of another length, or with an element other than 0 and 1, is no row. -/
theorem row_check_eq_false {cells : List Nat} (h : cells.length ≠ W ∨ ∃ c ∈ cells, 2 ≤ c) :
    (lengthIsWidth W cells && cellsAreBits cells) = false := by
  rcases h with hlen | ⟨c, hmem, hc⟩
  · rw [lengthIsWidth, decide_eq_false hlen, Bool.false_and]
  · have hbits : cellsAreBits cells = false :=
      List.all_eq_false.mpr ⟨c, hmem, by simpa using Nat.not_lt.mpr hc⟩
    rw [hbits, Bool.and_false]

/-- Settles O13: the checks of the operands decide both whether a request is well formed and whether it has a
word; each violation fails its check. -/
theorem contractViolationsHaveNoCommandWord : Obligations.ContractViolationsHaveNoCommandWord := by
  refine fun W request => ⟨fun h => ?_, toWord_eq_none, ?_, ?_, ?_, ?_⟩
  · exact Option.isSome_iff_exists.mp ((isSome_toWord request).trans h)
  · rintro rule mode cells rfl h
    apply toWord_eq_none
    rw [Request.WellFormed, Bool.and_assoc]
    rcases h with hrule | hmode | hrow
    · rw [ruleInRange_eq_false hrule, Bool.false_and, Bool.false_and]
    · rw [modeInRange_eq_false hmode, Bool.and_false, Bool.false_and]
    · rw [row_check_eq_false hrow, Bool.and_false]
  · rintro rule rfl hrule
    exact toWord_eq_none (ruleInRange_eq_false hrule)
  · rintro mode rfl hmode
    exact toWord_eq_none (modeInRange_eq_false hmode)
  · rintro cells rfl hrow
    exact toWord_eq_none (row_check_eq_false hrow)

/-! ### Reading a line (30_encoding.md R59) -/

theorem dropComment_of_not_mem {line : List Char} (h : ';' ∉ line) : dropComment line = line :=
  List.takeWhile_eq_self_iff.mpr fun c hc => by
    simpa using fun hsemi : c = ';' => h (hsemi ▸ hc)

theorem trim_cons_space (text : List Char) : trim (' ' :: text) = trim text := rfl

/-- A text that begins and ends with a character other than white space is trimmed already. -/
theorem trim_of_ends {first last : Char} (hfirst : isSpace first = false)
    (hlast : isSpace last = false) (middle : List Char) :
    trim (first :: middle ++ [last]) = first :: middle ++ [last] := by
  simp [trim, hfirst, hlast]

theorem splitAtCommas_of_not_mem {text : List Char} (h : ',' ∉ text) :
    splitAtCommas text = [text] := by
  induction text with
  | nil => rfl
  | cons c rest ih =>
    obtain ⟨hc, hrest⟩ : ',' ≠ c ∧ ',' ∉ rest := by simpa using h
    simp [splitAtCommas, ih hrest, hc.symm]

/-- A text without a comma is one operand. -/
theorem operandsOf_of_not_mem {text : List Char} (h : ',' ∉ text) (hne : trim text ≠ []) :
    operandsOf text = [trim text] := by
  rw [operandsOf, if_neg hne, splitAtCommas_of_not_mem h, List.map_singleton]

/-- The line of a statement: its mnemonic up to the first space, its operands after it, and the word of the
request they stand for. -/
theorem assembleLine_of_statement {line mnemonic rest : List Char}
    (htext : trim (dropComment line) = mnemonic ++ ' ' :: rest)
    (hmnemonic : ∀ c ∈ mnemonic, (!isSpace c) = true) :
    assembleLine W line =
      ((readStatement W mnemonic (operandsOf (' ' :: rest))).bind (Request.toWord W)).elim
        .refused .word := by
  have htake : (mnemonic ++ ' ' :: rest).takeWhile (fun c => !isSpace c) = mnemonic := by
    rw [List.takeWhile_append_of_pos hmnemonic]
    exact List.append_nil mnemonic
  have hdrop : (mnemonic ++ ' ' :: rest).dropWhile (fun c => !isSpace c) = ' ' :: rest := by
    rw [List.dropWhile_append_of_pos hmnemonic]
    rfl
  unfold assembleLine
  rw [htext]
  split
  · next hnil => exact absurd hnil (by simp)
  · dsimp only
    rw [htake, hdrop]
    cases (readStatement W mnemonic (operandsOf (' ' :: rest))).bind (Request.toWord W) <;> rfl

/-! ### The cell string (R59) -/

/-- The character of a cell. -/
def cellChar (b : Bool) : Char := if b then '1' else '0'

/-- The operand `c"..."` with these cells. -/
def cellStringOperand (cells : List Bool) : List Char := 'c' :: '"' :: cells.map cellChar ++ ['"']

theorem not_mem_cellStringOperand {c : Char} (hc : c ∉ ['c', '"', '0', '1']) (cells : List Bool) :
    c ∉ cellStringOperand cells := by
  simp only [List.mem_cons, List.not_mem_nil, or_false, not_or] at hc
  obtain ⟨hletter, hquote, hzero, hone⟩ := hc
  have hchar (b : Bool) : cellChar b ≠ c := by
    cases b
    · exact Ne.symm hzero
    · exact Ne.symm hone
  simp [cellStringOperand, hletter, hquote, hchar]

theorem trim_cellStringOperand (cells : List Bool) :
    trim (cellStringOperand cells) = cellStringOperand cells :=
  trim_of_ends rfl rfl ('"' :: cells.map cellChar)

theorem readCellString_cells (cells : List Bool) :
    readCellString (cells.map cellChar ++ ['"']) = some (cells.map Bool.toNat) := by
  induction cells with
  | nil => rfl
  | cons b rest ih =>
    cases b
    all_goals exact congrArg (Option.map _) ih

theorem readRow_cellStringOperand (cells : List Bool) :
    readRow W (cellStringOperand cells) = some (cells.map Bool.toNat) :=
  readCellString_cells cells

/-! ### The statement `SET_STATE c"..."` (R60) -/

/-- The characters of the mnemonic, on which `decide` need not unfold a string. -/
def setStateMnemonic : List Char := ['S', 'E', 'T', '_', 'S', 'T', 'A', 'T', 'E']

theorem readStatement_setState (operand : List Char) :
    readStatement W setStateMnemonic [operand] = (readRow W operand).map .setState := rfl

/-- The request of a row of cells has the word of the packed row, or none if the length is not `W`. -/
theorem toWord_setState_cells (cells : List Bool) :
    (Request.setState (cells.map Bool.toNat)).toWord W =
      (pack W cells).map fun bits => assembleWord bits 0 .fixed 6 := by
  have hbits : ∀ c ∈ cells.map Bool.toNat, c < 2 := by
    intro c hc
    obtain ⟨b, -, rfl⟩ := List.mem_map.mp hc
    exact Bool.toNat_lt b
  have hcells : (cells.map Bool.toNat).map cellOfNat = cells := by
    rw [List.map_map]
    exact List.map_id'' (fun b => by cases b <;> rfl) cells
  rw [Request.toWord, rowOperand_of_bits hbits, hcells]

/-- The line `SET_STATE c"..."` with these cells. -/
def setStateLine (cells : List Bool) : List Char :=
  setStateMnemonic ++ ' ' :: cellStringOperand cells

theorem setStateLine_eq (cells : List Bool) :
    "SET_STATE c\"".toList ++ cells.map cellChar ++ ['"'] = setStateLine cells := by
  have hprefix : "SET_STATE c\"".toList = setStateMnemonic ++ [' ', 'c', '"'] := rfl
  rw [hprefix, List.append_assoc, List.append_assoc]
  rfl

theorem trim_dropComment_setStateLine (cells : List Bool) :
    trim (dropComment (setStateLine cells)) = setStateLine cells := by
  have hsemi : ';' ∉ setStateLine cells := by
    rw [setStateLine, List.mem_append, List.mem_cons, not_or, not_or]
    exact ⟨by decide, by decide, not_mem_cellStringOperand (by decide) cells⟩
  rw [dropComment_of_not_mem hsemi]
  exact trim_of_ends rfl rfl (setStateMnemonic.tail ++ ' ' :: 'c' :: '"' :: cells.map cellChar)

theorem operandsOf_cellStringOperand (cells : List Bool) :
    operandsOf (' ' :: cellStringOperand cells) = [cellStringOperand cells] := by
  have htrim : trim (' ' :: cellStringOperand cells) = cellStringOperand cells := by
    rw [trim_cons_space, trim_cellStringOperand]
  have hcomma : ',' ∉ ' ' :: cellStringOperand cells :=
    List.not_mem_cons_of_ne_of_not_mem (by decide) (not_mem_cellStringOperand (by decide) cells)
  rw [operandsOf_of_not_mem hcomma (by rw [htrim]; exact List.cons_ne_nil _ _), htrim]

/-- Settles O9: the line is one mnemonic and one operand, which the reader takes to its cells; their row is
refused exactly for another length than `W`. -/
theorem cellStringAssemblesToItsRow : Obligations.CellStringAssemblesToItsRow := by
  intro W cells
  have hline : "SET_STATE c\"".toList ++ cells.map (fun b => if b then '1' else '0') ++ ['"'] =
      setStateLine cells := setStateLine_eq cells
  have hmnemonic : ∀ c ∈ setStateMnemonic, (!isSpace c) = true := by simp [setStateMnemonic, isSpace]
  rw [hline, assembleLine_of_statement (trim_dropComment_setStateLine cells) hmnemonic,
    operandsOf_cellStringOperand, readStatement_setState, readRow_cellStringOperand, Option.map_some,
    Option.bind_some, toWord_setState_cells]
  by_cases hlen : cells.length = W
  · rw [pack_of_length_eq hlen, if_pos hlen]
    rfl
  · rw [pack_of_length_ne hlen, if_neg hlen]
    rfl

end Sys2Proof.Machine
end
